-- ==== Sys2Proof/Word.lean ====
section
/-! DEFINITION. The words of the model: bytes (of the operation words of Decode.lean), values with the spec's
`⊥` beside them, and channel words of a width that the configuration fixes. -/

namespace Sys2Proof

/-- A byte of an operation word (Decode.lean). The block itself stores nothing in bytes (20_memory.md R41). -/
abbrev Byte := BitVec 8

/-- A register content that may be the spec's `⊥`, "no value" (00_scope.md R11, 10_state.md R33). `⊥` is a content the
spec itself names, writes (70_reset_and_hazards.md R150) and moves about (42_deserializer.md R111, 43_publisher.md R131). -/
inductive Lifted (α : Type) where
  /-- `⊥`: no value; it stands for any value, and no number may be read from it. -/
  | bot
  /-- A defined value. -/
  | val (a : α)
deriving DecidableEq, Repr

/-- The content is a value, not `⊥`. -/
def Lifted.isVal {α : Type} : Lifted α → Bool
  | .bot => false
  | .val _ => true

/-- A channel word (00_scope.md R10, 20_memory.md R42): `width` bits, bit 0 the least significant. The width is
AdcParams' `width`, so it is data of the word and not of its type. -/
structure Word where
  width : Nat
  bits : BitVec width
deriving DecidableEq, Repr

/-- The unsigned reading of a word (00_scope.md R10). -/
def Word.toNat (w : Word) : Nat := w.bits.toNat

/-- `sint_W`: the two's-complement reading of a word (00_scope.md R10). -/
def Word.toInt (w : Word) : Int := w.bits.toInt

end Sys2Proof
end

