-- ==== Sys2Proof/Config.lean ====
section
/-! DEFINITION. What an implementation fixes: `AdcParams` (00_scope.md R7), the parameters the source leaves open
(00_scope.md R9), the codes of a refused construction (60_exceptions.md R136), and the free value that stands for a read
of `⊥`. -/

namespace Sys2Proof

/-- The tuple handed to the constructor, before any check: six integers (60_exceptions.md R136: "Each parameter is an
integer"). -/
structure AdcTuple where
  channels : Int
  lanes : Int
  width : Int
  tCnvh : Int
  tConv : Int
  tRtt : Int
deriving DecidableEq, Repr

/-- `AdcParams` as a built block holds it (00_scope.md R7): C, L, W and the three phase lengths in controller cycles. -/
structure AdcParams where
  /-- C: the total count of published channel words, over all lanes (90_conflicts.md C1). -/
  channels : Nat
  /-- L: the serial data lanes. -/
  lanes : Nat
  /-- W: the bits of a channel word. -/
  width : Nat
  tCnvh : Nat
  tConv : Nat
  tRtt : Nat
deriving DecidableEq, Repr

/-- The codes of `ConfigError` (60_exceptions.md R136). -/
inductive ConfigError where
  | eChannels
  | eLanes
  | eDivide
  | eWidth
  | eTCnvh
  | eTConv
  | eTRtt
deriving DecidableEq, Repr

/-- `DDR_ORDER` (00_scope.md R9, 41_clock_synth.md R103): which low bit of `clk_sr` drives the first half-cycle. -/
inductive DdrOrder where
  | hiFirst
  | loFirst
deriving DecidableEq, Repr

/-- `DEINT` (43_publisher.md R121): the map from (channel, bit) to (lane, register bit), as plain data. `standard` is the
default of R127; `table` is any other map, row `ch` and column `b` holding (p, q): a golden vector from the reference goes
here. -/
inductive DeintMap where
  | standard
  | table (rows : List (List (Nat × Nat)))
deriving DecidableEq, Repr

/-- `PHASE_CODE` (00_scope.md R9, 30_encoding.md R56): the 3-bit code of each phase. The defaults are the spec's decision
D4. -/
structure PhaseCode where
  idle : BitVec 3 := 0b000#3
  cnvh : BitVec 3 := 0b001#3
  conv : BitVec 3 := 0b010#3
  read : BitVec 3 := 0b011#3
  rtt : BitVec 3 := 0b100#3
deriving DecidableEq, Repr

/-- `CW` (00_scope.md R9): the bits of the counter register. `fitted` is the default `max(1, bitlength(T_MAX))` of
92_eei_decisions.md D3; `bits` is any other width. -/
inductive CounterWidth where
  | fitted
  | bits (n : Nat)
deriving DecidableEq, Repr

/-- One block's configuration, fixed for its lifetime (10_state.md R31): AdcParams, and the open parameters of
00_scope.md R9 with the spec's defaults. -/
structure Config where
  adc : AdcParams
  /-- `SEED`; the default is the spec's decision D5. -/
  seed : BitVec 6 := 0b111000#6
  /-- `DDR_ORDER`; the default is the spec's decision D6. -/
  ddr : DdrOrder := .hiFirst
  /-- `COUNT_RESET`; the default is the spec's decision D2. -/
  countReset : Nat := 0
  /-- `DEINT`; the default is the spec's decisions D9 and D10. -/
  deint : DeintMap := .standard
  /-- `PHASE_CODE`; the default is the spec's decision D4. -/
  phaseCode : PhaseCode := {}
  /-- `CW`; the default is the spec's decision D3. -/
  counterWidth : CounterWidth := .fitted
deriving DecidableEq, Repr

/-- The tuple S8 of 40_controller.md and of the source's concrete scenario (95_test_vectors.md W1). -/
def AdcParams.s8 : AdcParams :=
  { channels := 8, lanes := 2, width := 16, tCnvh := 5, tConv := 57, tRtt := 5 }

/-- The configuration of `State.reset`: S8 with every default of 00_scope.md R9. DESIGN CHOICE (notes/assumptions/2.md):
the spec names no default AdcParams. -/
def Config.s8 : Config := { adc := .s8 }

/-- FREE VALUE (93_implementation_defined.md U1): the `w`-bit word that an observer sees on the port of channel `ch` at its
observation number `obs` while the register holds `⊥`. It has no body: nothing can be proved of it
(notes/assumptions/8.md). -/
opaque Config.freeWord (obs ch w : Nat) : BitVec w

end Sys2Proof
end

