-- ==== Sys2Proof/Syntax.lean ====
section
/-! DEFINITION. The phases, the operations of a stimulus trace (30_encoding.md R55, R66), and the instructions: one
constructor for each row of spec/opcode_table.json (30_encoding.md R60). -/

namespace Sys2Proof

/-- The phases of the acquisition state machine (10_state.md R21). -/
inductive Phase where
  | idle
  | cnvh
  | conv
  | read
  | rtt
deriving DecidableEq, Repr

/-- What the 3-bit `phase` register can hold (30_encoding.md R56, R61): the code of a phase, or one of the three codes
that name none (`unused 0`, `1` and `2`, in rising order: 101, 110 and 111 under the default `PHASE_CODE`). No rule writes an
unused code. -/
inductive PhaseReg where
  | named (p : Phase)
  | unused (c : Fin 3)
deriving DecidableEq, Repr

/-- The four kinds of operation, as the environment presents them (30_encoding.md R55): which clock has an edge, and the
inputs sampled at it. `sdo` lists the lane levels in declared order, lane 0 first (R59). -/
inductive Op where
  /-- A controller tick with `rst = 0`. -/
  | tick (start : Bool)
  /-- A controller tick with `rst = 1`; `start` is ignored. -/
  | rst
  /-- An active edge of the return clock. -/
  | ret (sdo : List Bool)
  /-- A controller tick and a return edge that coincide (20_memory.md R48). -/
  | coinc (rst start : Bool) (sdo : List Bool)
deriving DecidableEq, Repr

/-- The rows of the opcode table. A `TICK` row whose key leaves `start` open carries it as its operand; the four IDLE rows
fix it. -/
inductive Instr where
  | idleWait
  | idleDrain
  | idleStart
  | idleStartEarly
  | cnvhHold (start : Bool)
  | cnvhEnd (start : Bool)
  | convHold (start : Bool)
  | convEnd (start : Bool)
  | readShift (start : Bool)
  | readEnd (start : Bool)
  | rttHold (start : Bool)
  | rttUpdate (start : Bool)
  | rst
  | ret (sdo : List Bool)
  | coinc (rst start : Bool) (sdo : List Bool)
deriving DecidableEq, Repr

end Sys2Proof
end

