-- ==== Sys2Proof/WellFormed.lean ====
section
/-! DEFINITION. When an operation or an instruction is one of a block with `lanes` lanes: its `sdo` operand is an
L-bit vector (30_encoding.md R55, R59). No other operand has a restriction. -/

namespace Sys2Proof

/-- `sdo` is an L-bit vector (30_encoding.md R59). -/
def sdoFits (lanes : Nat) (sdo : List Bool) : Bool := sdo.length == lanes

/-- An operation of a block with `lanes` lanes. -/
def Op.wellFormed (lanes : Nat) : Op → Bool
  | .tick _ => true
  | .rst => true
  | .ret sdo => sdoFits lanes sdo
  | .coinc _ _ sdo => sdoFits lanes sdo

/-- An instruction of a block with `lanes` lanes. -/
def Instr.wellFormed (lanes : Nat) : Instr → Bool
  | .idleWait => true
  | .idleDrain => true
  | .idleStart => true
  | .idleStartEarly => true
  | .cnvhHold _ => true
  | .cnvhEnd _ => true
  | .convHold _ => true
  | .convEnd _ => true
  | .readShift _ => true
  | .readEnd _ => true
  | .rttHold _ => true
  | .rttUpdate _ => true
  | .rst => true
  | .ret sdo => sdoFits lanes sdo
  | .coinc _ _ sdo => sdoFits lanes sdo

end Sys2Proof
end

