-- ==== Sys2Proof/Decode.lean ====
section
/-! DEFINITION. The transition key (30_encoding.md R56, R57), the operation words, the decoder (R60, R61, R64) and the
encoder.

The spec gives the 6-bit key of the TICK and RST rows and the operands of RET and COINC, and no bit that tells the four
formats apart. DESIGN CHOICE (notes/assumptions/7.md; unobservable by R65): an operation word is a list of bytes. Bits 7:6 of
the first byte say which clocks have an edge (00 controller, 01 return, 11 both, 10 reserved) and bits 5:0 hold the key of
a TICK or RST, zero for a RET, and `rst` (bit 5) and `start` (bit 1) for a COINC. The L levels of `sdo` follow, lane p at
bit p mod 8 of byte p div 8, the bits above lane L-1 zero. -/

namespace Sys2Proof

/-- Why bytes are no operation word. -/
inductive DecodeError where
  /-- There is no byte. -/
  | empty
  /-- The key's phase code names no phase (30_encoding.md R61): 101, 110 or 111 under the default `PHASE_CODE`. -/
  | phaseIllegal
  /-- Bits 7:6 of the first byte are 10. -/
  | reservedFormat
  /-- A bit of the first byte that the format leaves unused is 1. -/
  | reservedBits
  /-- Fewer bytes follow than the L levels of `sdo` take. -/
  | truncated
  /-- A bit above lane L-1 is 1. -/
  | padding
deriving DecidableEq, Repr

/-- The code of a phase (30_encoding.md R56). -/
def phaseCode (code : PhaseCode) : Phase → BitVec 3
  | .idle => code.idle
  | .cnvh => code.cnvh
  | .conv => code.conv
  | .read => code.read
  | .rtt => code.rtt

/-- The codes that name a phase. -/
def usedCodes (code : PhaseCode) : List (BitVec 3) := [code.idle, code.cnvh, code.conv, code.read, code.rtt]

/-- `PHASE_CODE` is injective, as 30_encoding.md R65 asks. -/
def phaseCodeOk (code : PhaseCode) : Bool := decide (usedCodes code).Nodup

/-- The codes that name no phase, rising (30_encoding.md R61); three of them when the code is injective. -/
def freeCodes (code : PhaseCode) : List (BitVec 3) :=
  [0b000#3, 0b001#3, 0b010#3, 0b011#3, 0b100#3, 0b101#3, 0b110#3, 0b111#3].filter fun c => !(usedCodes code).contains c

/-- The code that the phase register holds. -/
def phaseRegCode (code : PhaseCode) : PhaseReg → BitVec 3
  | .named p => phaseCode code p
  | .unused c => (freeCodes code).getD c.val 0b000#3

/-- The register content that a code stands for. -/
def phaseRegOfCode (code : PhaseCode) (c : BitVec 3) : PhaseReg :=
  if c = code.idle then .named .idle
  else if c = code.cnvh then .named .cnvh
  else if c = code.conv then .named .conv
  else if c = code.read then .named .read
  else if c = code.rtt then .named .rtt
  else if c = (freeCodes code).getD 0 0b000#3 then .unused 0
  else if c = (freeCodes code).getD 1 0b000#3 then .unused 1
  else .unused 2

/-- `key = {rst, phase[2:0], start, count_done}` (30_encoding.md R57). -/
def transitionKey (rst : Bool) (phase : BitVec 3) (start countDone : Bool) : BitVec 6 :=
  BitVec.ofBool rst ++ phase ++ BitVec.ofBool start ++ BitVec.ofBool countDone

/-- A row of the operation map: it is selected when `key & mask = pattern` (30_encoding.md R57). `build` makes the
instruction from the key's `start` bit. -/
structure KeyRow where
  pattern : BitVec 6
  mask : BitVec 6
  build : Bool → Instr

/-- The thirteen rows of the controller domain (30_encoding.md R60), with the phase field of each pattern in `PHASE_CODE`.
Under the default code the patterns are those of spec/opcode_table.json. -/
def keyRows (code : PhaseCode) : List KeyRow :=
  [ ⟨transitionKey false code.idle false true, 0b111111#6, fun _ => .idleWait⟩,
    ⟨transitionKey false code.idle false false, 0b111111#6, fun _ => .idleDrain⟩,
    ⟨transitionKey false code.idle true true, 0b111111#6, fun _ => .idleStart⟩,
    ⟨transitionKey false code.idle true false, 0b111111#6, fun _ => .idleStartEarly⟩,
    ⟨transitionKey false code.cnvh false false, 0b111101#6, .cnvhHold⟩,
    ⟨transitionKey false code.cnvh false true, 0b111101#6, .cnvhEnd⟩,
    ⟨transitionKey false code.conv false false, 0b111101#6, .convHold⟩,
    ⟨transitionKey false code.conv false true, 0b111101#6, .convEnd⟩,
    ⟨transitionKey false code.read false false, 0b111101#6, .readShift⟩,
    ⟨transitionKey false code.read false true, 0b111101#6, .readEnd⟩,
    ⟨transitionKey false code.rtt false false, 0b111101#6, .rttHold⟩,
    ⟨transitionKey false code.rtt false true, 0b111101#6, .rttUpdate⟩,
    ⟨0b100000#6, 0b100000#6, fun _ => .rst⟩ ]

/-- `row` is selected by `key` (30_encoding.md R57). -/
def KeyRow.selects (row : KeyRow) (key : BitVec 6) : Bool := key &&& row.mask == row.pattern

/-- The row a key selects; a key with `rst = 0` and a reserved phase code selects none (30_encoding.md R61, R64). -/
def decodeKey (code : PhaseCode) (key : BitVec 6) : Except DecodeError Instr :=
  match (keyRows code).find? (fun row => row.selects key) with
  | some row => .ok (row.build (key.getLsbD 1))
  | none => .error .phaseIllegal

/-- The bytes that L levels take. -/
def sdoBytes (lanes : Nat) : Nat := (lanes + 7) / 8

/-- Byte `j` of packed levels: lane `8 * j + n` at bit `n`. -/
def packByte (sdo : List Bool) (j : Nat) : Byte :=
  BitVec.ofBoolListLE
    [ sdo.getD (8 * j) false, sdo.getD (8 * j + 1) false, sdo.getD (8 * j + 2) false, sdo.getD (8 * j + 3) false,
      sdo.getD (8 * j + 4) false, sdo.getD (8 * j + 5) false, sdo.getD (8 * j + 6) false, sdo.getD (8 * j + 7) false ]

/-- The bytes of the levels `sdo`. -/
def packSdo (sdo : List Bool) : List Byte := (List.range (sdoBytes sdo.length)).map (packByte sdo)

/-- The L levels that bytes hold. -/
def unpackSdo (lanes : Nat) (bytes : List Byte) : List Bool :=
  (List.range lanes).map fun p => (bytes.getD (p / 8) 0#8).getLsbD (p % 8)

/-- The `sdo` operand of a RET or COINC word, and the bytes after it (30_encoding.md R59). -/
def decodeSdo (lanes : Nat) (bytes : List Byte) : Except DecodeError (List Bool × List Byte) :=
  if bytes.length < sdoBytes lanes then .error .truncated
  else if packSdo (unpackSdo lanes bytes) = bytes.take (sdoBytes lanes) then
    .ok (unpackSdo lanes bytes, bytes.drop (sdoBytes lanes))
  else .error .padding

/-- The first byte: bits 7:6 the edges, bits 5:0 the key or the operand bits. -/
def formatByte (edges : BitVec 2) (low : BitVec 6) : Byte := edges ++ low

/-- A controller edge alone. -/
def edgesController : BitVec 2 := 0b00#2
/-- A return edge alone. -/
def edgesReturn : BitVec 2 := 0b01#2
/-- Both edges at once. -/
def edgesBoth : BitVec 2 := 0b11#2

/-- The bits of a COINC's first byte that are not `rst` or `start`. -/
def coincReserved : BitVec 6 := 0b011101#6

/-- The decoder of a block with `PHASE_CODE` `code` and `lanes` lanes: the first instruction of the bytes and the bytes after
it. Total. -/
def decode (code : PhaseCode) (lanes : Nat) : List Byte → Except DecodeError (Instr × List Byte)
  | [] => .error .empty
  | b :: rest =>
    if b.extractLsb' 6 2 = edgesController then
      match decodeKey code (b.extractLsb' 0 6) with
      | .ok i => .ok (i, rest)
      | .error e => .error e
    else if b.extractLsb' 6 2 = edgesReturn then
      if b.extractLsb' 0 6 = 0#6 then
        match decodeSdo lanes rest with
        | .ok (sdo, after) => .ok (.ret sdo, after)
        | .error e => .error e
      else .error .reservedBits
    else if b.extractLsb' 6 2 = edgesBoth then
      if b.extractLsb' 0 6 &&& coincReserved = 0#6 then
        match decodeSdo lanes rest with
        | .ok (sdo, after) => .ok (.coinc (b.getLsbD 5) (b.getLsbD 1) sdo, after)
        | .error e => .error e
      else .error .reservedBits
    else .error .reservedFormat

/-- The word of a controller operation with key `key`. -/
def keyWord (key : BitVec 6) : List Byte := [formatByte edgesController key]

/-- The word of a RET. -/
def retWord (sdo : List Bool) : List Byte := formatByte edgesReturn 0#6 :: packSdo sdo

/-- The word of a COINC. -/
def coincWord (rst start : Bool) (sdo : List Bool) : List Byte :=
  formatByte edgesBoth (transitionKey rst 0b000#3 start false) :: packSdo sdo

/-- The encoder (30_encoding.md R60): the key of each row, its `start` bit the operand; RST's ignored bits are zero. -/
def encode (code : PhaseCode) : Instr → List Byte
  | .idleWait => keyWord (transitionKey false code.idle false true)
  | .idleDrain => keyWord (transitionKey false code.idle false false)
  | .idleStart => keyWord (transitionKey false code.idle true true)
  | .idleStartEarly => keyWord (transitionKey false code.idle true false)
  | .cnvhHold start => keyWord (transitionKey false code.cnvh start false)
  | .cnvhEnd start => keyWord (transitionKey false code.cnvh start true)
  | .convHold start => keyWord (transitionKey false code.conv start false)
  | .convEnd start => keyWord (transitionKey false code.conv start true)
  | .readShift start => keyWord (transitionKey false code.read start false)
  | .readEnd start => keyWord (transitionKey false code.read start true)
  | .rttHold start => keyWord (transitionKey false code.rtt start false)
  | .rttUpdate start => keyWord (transitionKey false code.rtt start true)
  | .rst => keyWord 0b100000#6
  | .ret sdo => retWord sdo
  | .coinc rst start sdo => coincWord rst start sdo

/-- The bytes of a table word of `nbits` bits, least significant byte first, with zeros up to the longest instruction of a
block with `lanes` lanes. -/
def tableBytes (lanes nbits w : Nat) : List Byte :=
  (List.range (max ((nbits + 7) / 8) (1 + sdoBytes lanes))).map fun j => BitVec.ofNat 8 ((w % 2 ^ nbits) >>> (8 * j))

/-- The instruction that the decoder reads from a table word, for the `PHASE_CODE` and the lanes of `State.reset`'s
configuration. -/
def decodeTableWord (nbits w : Nat) : Option Instr :=
  match decode Config.s8.phaseCode Config.s8.adc.lanes (tableBytes Config.s8.adc.lanes nbits w) with
  | .ok (i, _) => some i
  | .error _ => none

end Sys2Proof
end

