-- ==== Sys2Proof/Machine/Derived.lean ====
section
/-! DEFINITION. The derived quantities of 00_scope.md R8 and the reload constants of 30_encoding.md R58. -/

namespace Sys2Proof

/-- `k = C / L`: channel words for each lane (00_scope.md R8). -/
def Config.wordsPerLane (c : Config) : Nat := c.adc.channels / c.adc.lanes

/-- `R = 3 * W * C / L`: the read duration in controller cycles (00_scope.md R8). -/
def Config.readDuration (c : Config) : Nat := 3 * c.adc.width * c.adc.channels / c.adc.lanes

/-- `D = 2 * R`: the depth of each lane shift register (00_scope.md R8). -/
def Config.srDepth (c : Config) : Nat := 2 * c.readDuration

/-- `k * W`: the bits of one lane's sampling window (43_publisher.md R123), and the return edges of one transfer. -/
def Config.windowBits (c : Config) : Nat := c.wordsPerLane * c.adc.width

/-- `N`: the controller cycles of one acquisition (00_scope.md R8). -/
def Config.acquisitionCycles (c : Config) : Nat := c.adc.tCnvh + c.adc.tConv + c.readDuration + c.adc.tRtt

/-- `T_MAX`: the largest value a load can give the counter (00_scope.md R8). -/
def Config.tMax (c : Config) : Nat := max (max c.adc.tCnvh c.adc.tConv) (max c.readDuration c.adc.tRtt) - 1

/-- The largest value the rules can give the counter (10_state.md R23). -/
def Config.countMax (c : Config) : Nat := max c.tMax c.countReset

/-- `CW`: the bits of the counter register (00_scope.md R9), by default `max(1, bitlength(T_MAX))` (92_eei_decisions.md D3). -/
def Config.counterBits (c : Config) : Nat :=
  match c.counterWidth with
  | .fitted => max 1 (Nat.size c.tMax)
  | .bits n => n

/-- `CW` is the default, or a width that holds every value the rules can give the counter, as 40_controller.md R96 asks of a
hardware width. -/
def counterWidthOk (c : Config) : Bool :=
  match c.counterWidth with
  | .fitted => true
  | .bits n => decide (c.countMax < 2 ^ n)

/-- `LD_CNVH` (30_encoding.md R58). -/
def Config.ldCnvh (c : Config) : Nat := c.adc.tCnvh - 1
/-- `LD_CONV` (30_encoding.md R58). -/
def Config.ldConv (c : Config) : Nat := c.adc.tConv - 1
/-- `LD_READ` (30_encoding.md R58). -/
def Config.ldRead (c : Config) : Nat := c.readDuration - 1
/-- `LD_RTT` (30_encoding.md R58). -/
def Config.ldRtt (c : Config) : Nat := c.adc.tRtt - 1
/-- `LD_ZERO` (30_encoding.md R58; the spec's decision D7). -/
def Config.ldZero (_ : Config) : Nat := 0

end Sys2Proof
end

