-- ==== Sys2Proof/Machine/State.lean ====
section
/-! DEFINITION. The state of one block (10_state.md R20), the ways a step can stop, and the power-on state. -/

namespace Sys2Proof.Machine

/-- The state. `phase`, `count`, `clkSr`, `data` and `sr` are the block's registers and all of them (10_state.md R20). `cfg`
is the block's configuration, which nothing writes (R31; notes/assumptions/1.md). `trace` is the stimulus the environment
still holds for the block, next operation first (20_memory.md R47; notes/assumptions/3.md). -/
structure State where
  /-- The configuration the block was built with. -/
  cfg : Config
  /-- The current phase, 3 bits (10_state.md R21). -/
  phase : PhaseReg
  /-- The shared down-counter, a natural number that CW bits hold (10_state.md R23, notes/assumptions/6.md). -/
  count : Nat
  /-- The clock-synthesis register (10_state.md R24). -/
  clkSr : BitVec 6
  /-- The C published channel words, `data[ch]` at index `ch` (10_state.md R26). -/
  data : List (Lifted Word)
  /-- The L lane shift registers of the return domain: lane p at index p, its bit q at index q (10_state.md R25). -/
  sr : List (List (Lifted Bool))
  /-- The operations still to come. -/
  trace : List Op
deriving DecidableEq, Repr

/-- The run-time faults. The block itself has none (60_exceptions.md R135). -/
inductive Fault where
  /-- PHASE_ILLEGAL (30_encoding.md R61): raised by the fetch of a TICK, and by the TICK part of a COINC, while the phase
  register holds a code that names no phase. Safe: the spec names this fault, and no run reaches it. -/
  | phaseIllegal
deriving DecidableEq, Repr

/-- The reasons there is no next state although the block does not fault. -/
inductive Refusal where
  /-- An instruction without a meaning: raised by no arm of this model. Safe. -/
  | notModelled (mnemonic : String)
  /-- Raised by the fetch: AdcParams fails these checks, so no block was built (60_exceptions.md R136, R137). Safe: such a
  block does not exist. -/
  | configError (codes : List ConfigError)
  /-- Raised by the fetch: SEED does not have exactly three bits set (41_clock_synth.md R100). Safe: as configError. -/
  | seedPattern
  /-- Raised by the fetch: DEINT is not a total, injective map into the lane registers (43_publisher.md R121,
  92_eei_decisions.md D10). Safe: as configError. -/
  | deintMap
  /-- Raised by the fetch: PHASE_CODE gives two phases one code (30_encoding.md R65, notes/assumptions/5.md). Safe: as
  configError. -/
  | phaseCode
  /-- Raised by the fetch: CW is given as a width that does not hold every counter value (40_controller.md R96,
  notes/assumptions/6.md). Safe: as configError. -/
  | counterWidth
  /-- Raised by the fetch: the environment presents no further edge (the trace is empty). Safe: the block would wait, with
  every register unchanged. -/
  | noOperation
  /-- Raised by the fetch and by the meanings of RET and COINC: `sdo` is not an L-bit vector (30_encoding.md R59), so this
  is no operation of this block. Safe. -/
  | laneCount
  /-- Raised by the meaning of a TICK row in a state whose key does not select the row (30_encoding.md R57, R64); never by a
  step, which selects the row by the key. Safe: such a transition does not exist. -/
  | keyMismatch
  /-- Raised by the fetch if the operation word did not decode; no well-formed operation reaches it. Safe. -/
  | undecodable (e : DecodeError)
deriving DecidableEq, Repr

/-- What a step answers. -/
abbrev StepResult := Host.Outcome State Fault Refusal

/-- The power-on state of a block (70_reset_and_hazards.md R152, 10_state.md R34), with no operation pending. -/
def State.powerOn (c : Config) : State :=
  { cfg := c
    phase := .named .idle
    count := c.countReset
    clkSr := c.seed
    data := List.replicate c.adc.channels .bot
    sr := List.replicate c.adc.lanes (List.replicate c.srDepth .bot)
    trace := [] }

/-- The machine right after reset: the power-on state of the block S8 with the spec's defaults (notes/assumptions/2.md). -/
def State.reset : State := State.powerOn Config.s8

end Sys2Proof.Machine
end

