-- ==== Sys2Proof/Machine/Flags.lean ====
section
/-! DEFINITION. Every signal that is a function of the registers: the counter's `count_done` and reload value
(40_controller.md R70, R71), the flags (R86 to R90), the bit clock (41_clock_synth.md R103) and the output ports
(10_state.md R30). None of them is a register (10_state.md R27, R28). -/

namespace Sys2Proof.Machine

/-- `count_done` (40_controller.md R70). -/
def State.countDone (s : State) : Bool := s.count == 0

/-- `done`: idle, safe to start (40_controller.md R86). -/
def State.done (s : State) : Bool := s.phase == .named .idle

/-- `cnv`: the convert-start line (40_controller.md R87). -/
def State.cnv (s : State) : Bool := s.phase == .named .cnvh

/-- `reading` (40_controller.md R88). -/
def State.reading (s : State) : Bool := s.phase == .named .read || s.phase == .named .rtt

/-- `sck_en`: the clock-gate enable, no port (40_controller.md R89). -/
def State.sckEn (s : State) : Bool := s.phase == .named .read

/-- `update`: internal, no port (40_controller.md R90). -/
def State.update (s : State) : Bool := s.phase == .named .rtt && s.countDone

/-- `count_load` in phase `p` (40_controller.md R71). -/
def countLoad (c : Config) (p : Phase) (start : Bool) : Nat :=
  match p with
  | .idle => if start then c.ldCnvh else c.ldZero
  | .cnvh => c.ldConv
  | .conv => c.ldRead
  | .read => c.ldRtt
  | .rtt => c.ldZero

/-- The two levels of the DDR output in one cycle, first half-cycle first (41_clock_synth.md R103). -/
def ddrLevels (order : DdrOrder) (v : BitVec 6) : Bool × Bool :=
  match order with
  | .hiFirst => (v.getLsbD 1, v.getLsbD 0)
  | .loFirst => (v.getLsbD 0, v.getLsbD 1)

/-- `sck` in the current cycle, whatever `sck_en` is (41_clock_synth.md R103). -/
def State.sck (s : State) : Bool × Bool := ddrLevels s.cfg.ddr s.clkSr

/-- The content of `data[ch]`. -/
def State.dataAt (s : State) (ch : Nat) : Lifted Word := s.data.getD ch .bot

/-- The output ports (10_state.md R30): these are all of them. A word that is `⊥` is shown as `⊥`. -/
structure Outputs where
  done : Bool
  reading : Bool
  cnv : Bool
  sck : Bool × Bool
  data : List (Lifted Word)
deriving DecidableEq, Repr

/-- The outputs in the current cycle. Reading them changes nothing (20_memory.md R44). -/
def State.outputs (s : State) : Outputs :=
  { done := s.done, reading := s.reading, cnv := s.cnv, sck := s.sck, data := s.data }

/-- The bits that an observer sees on the port of channel `ch` at observation `obs`: the published word, and for `⊥` a free
value of the port's width (93_implementation_defined.md U1; notes/assumptions/8.md). -/
def State.portWord (obs : Nat) (s : State) (ch : Nat) : Word :=
  match s.dataAt ch with
  | .val w => w
  | .bot => ⟨s.cfg.adc.width, Config.freeWord obs ch s.cfg.adc.width⟩

end Sys2Proof.Machine
end

