-- ==== Sys2Proof/Machine/Operands.lean ====
section
/-! DEFINITION. The operands of the operations: the level of a lane (30_encoding.md R59), the map DEINT (43_publisher.md
R121 to R127), and the raw channel words it assembles (R120, R126). -/

namespace Sys2Proof.Machine

/-- The level of lane `p` at a return edge: bit p of `sdo` (30_encoding.md R59). -/
def laneLevel (sdo : List Bool) (p : Nat) : Bool := sdo.getD p false

/-- The channel group and the lane that feeds it: group g is read from lane `L - 1 - g` (43_publisher.md R122). -/
def groupLane (c : Config) (g : Nat) : Nat := c.adc.lanes - 1 - g

/-- The default DEINT (43_publisher.md R127): the lane and the register bit of bit `b` of channel `ch`. -/
def deintStandard (c : Config) (ch b : Nat) : Nat × Nat :=
  (groupLane c (ch / c.wordsPerLane), (c.wordsPerLane - 1 - ch % c.wordsPerLane) * c.adc.width + b)

/-- DEINT of a configuration (43_publisher.md R121); `none` only outside a table, which no built block has. -/
def deintAt (c : Config) (ch b : Nat) : Option (Nat × Nat) :=
  match c.deint with
  | .standard => some (deintStandard c ch b)
  | .table rows => (rows.getD ch [])[b]?

/-- Bit `q` of lane `p` of the sampled registers. -/
def sampleBit (samples : List (List (Lifted Bool))) (p q : Nat) : Lifted Bool := (samples.getD p []).getD q .bot

/-- Bit `b` of the raw word of channel `ch` (43_publisher.md R120). -/
def rawBit (c : Config) (samples : List (List (Lifted Bool))) (ch b : Nat) : Lifted Bool :=
  match deintAt c ch b with
  | some (p, q) => sampleBit samples p q
  | none => .bot

/-- The bits of the raw word of channel `ch`, bit 0 first. -/
def rawBits (c : Config) (samples : List (List (Lifted Bool))) (ch : Nat) : List (Lifted Bool) :=
  (List.range c.adc.width).map (rawBit c samples ch)

/-- The levels of bits that are all defined; `none` when one of them is `⊥`. -/
def definedBits : List (Lifted Bool) → Option (List Bool)
  | [] => some []
  | .bot :: _ => none
  | .val b :: rest =>
    match definedBits rest with
    | some bs => some (b :: bs)
    | none => none

/-- The word whose bits are `bs`, bit 0 first. -/
def wordOfBits (bs : List Bool) : Word := ⟨bs.length, BitVec.ofBoolListLE bs⟩

end Sys2Proof.Machine
end

