-- ==== Sys2Proof/Machine/Ops.lean ====
section
/-! DEFINITION. The named operations over the registers: phase and counter writes, rotation, lane shift, publication, reset,
and the selection of a TICK row by its key.

There is no operation for taking an exception and none for returning from one: nothing in the block traps, saves a state or
returns (60_exceptions.md R135, R141, R142). The only run-time fault of the spec is PHASE_ILLEGAL (30_encoding.md R61). -/

namespace Sys2Proof.Machine

/-- `phase <- p`. -/
def State.enter (s : State) (p : Phase) : State := { s with phase := .named p }

/-- `count <- n`, without extension or scaling (30_encoding.md R58). -/
def State.loadCount (s : State) (n : Nat) : State := { s with count := n }

/-- `count <- count - 1`; used only when `count ≠ 0` (40_controller.md R72, R96). -/
def State.decCount (s : State) : State := { s with count := s.count - 1 }

/-- `rotl6(v, n)` (00_scope.md R10), for any n: `n` and `n mod 6` rotate alike. -/
def rotl6 (v : BitVec 6) (n : Nat) : BitVec 6 := (v <<< (n % 6)) ||| (v >>> (6 - n % 6))

/-- `clk_sr <- rotl6(clk_sr, 2)` (41_clock_synth.md R102). -/
def State.rotateClock (s : State) : State := { s with clkSr := rotl6 s.clkSr 2 }

/-- `neg_W(v) = (2^W - v) mod 2^W` (00_scope.md R10, 43_publisher.md R128). -/
def negW (w : Word) : Word := ⟨w.width, BitVec.ofNat w.width (2 ^ w.width - w.bits.toNat)⟩

/-- What a word with these raw bits is published as: its negation, or `⊥` as a whole when a bit is `⊥` (43_publisher.md
R128, R131). -/
def publishWord (bits : List (Lifted Bool)) : Lifted Word :=
  match definedBits bits with
  | some bs => .val (negW (wordOfBits bs))
  | none => .bot

/-- The C words published from sampled registers (43_publisher.md R120). -/
def published (c : Config) (samples : List (List (Lifted Bool))) : List (Lifted Word) :=
  (List.range c.adc.channels).map fun ch => publishWord (rawBits c samples ch)

/-- `data <- published` for all words at once (43_publisher.md R130). -/
def State.latch (s : State) (samples : List (List (Lifted Bool))) : State := { s with data := published s.cfg samples }

/-- `sample` at an ordinary TICK: the lane registers as the earlier return edges left them (20_memory.md R45). -/
def State.sampleOrdered (s : State) : List (List (Lifted Bool)) := s.sr

/-- `sample` at a coincident tick: `⊥` in every bit of every lane (20_memory.md R45, R48). -/
def State.sampleCoincident (s : State) : List (List (Lifted Bool)) := s.sr.map fun lane => lane.map fun _ => .bot

/-- One lane at a return edge: shift left by one, the new bit at bit 0, the old top bit lost (42_deserializer.md R111). -/
def shiftLane (lane : List (Lifted Bool)) (level : Bool) : List (Lifted Bool) :=
  (Lifted.val level :: lane).take lane.length

/-- Every lane at the same return edge (42_deserializer.md R111). -/
def shiftLanes (sr : List (List (Lifted Bool))) (sdo : List Bool) : List (List (Lifted Bool)) :=
  sr.mapIdx fun p lane => shiftLane lane (laneLevel sdo p)

/-- The return domain's part of a RET or a COINC. -/
def State.returnEdge (s : State) (sdo : List Bool) : State := { s with sr := shiftLanes s.sr sdo }

/-- The register writes of RST (70_reset_and_hazards.md R150). -/
def State.resetRegisters (s : State) : State :=
  { s with
    phase := .named .idle
    count := s.cfg.countReset
    clkSr := s.cfg.seed
    data := List.replicate s.cfg.adc.channels .bot
    sr := List.replicate s.cfg.adc.lanes (List.replicate s.cfg.srDepth .bot) }

/-- A TICK row: it applies in phase `p` with `count_done = done`, where it gives `t`; no other key selects it
(30_encoding.md R57, R64). -/
def tickRow (p : Phase) (done : Bool) (s t : State) : StepResult :=
  if s.phase = .named p ∧ s.countDone = done then .next t else .refused .keyMismatch

/-- An operation with the operand `sdo` on a block with `lanes` lanes; another length is no operand of this block
(30_encoding.md R59). -/
def withSdo (s : State) (sdo : List Bool) (r : StepResult) : StepResult :=
  if sdoFits s.cfg.adc.lanes sdo then r else .refused .laneCount

end Sys2Proof.Machine
end

