-- ==== Sys2Proof/Machine/Tick.lean ====
section
/-! DEFINITION. One controller tick as the composition of its parts (40_controller.md R73): the counter, the state machine,
the clock synthesizer and the sample publisher, each reading the state from before the tick. COINC uses it for its
controller part; the TICK rows are written out one by one in Controller.lean. -/

namespace Sys2Proof.Machine

/-- `count <- if count_done then count_load else count - 1` (40_controller.md R72). -/
def nextCount (s : State) (p : Phase) (start : Bool) : Nat :=
  if s.countDone then countLoad s.cfg p start else s.count - 1

/-- The phase after a tick: `start` alone leaves IDLE, `count_done` alone ends every other phase (40_controller.md R70, R74
to R85). -/
def nextPhase (p : Phase) (start countDone : Bool) : Phase :=
  match p with
  | .idle => if start then .cnvh else .idle
  | .cnvh => if countDone then .conv else .cnvh
  | .conv => if countDone then .read else .conv
  | .read => if countDone then .rtt else .read
  | .rtt => if countDone then .idle else .rtt

/-- `clk_sr` after a tick (41_clock_synth.md R102). -/
def nextClkSr (s : State) : BitVec 6 := if s.sckEn then rotl6 s.clkSr 2 else s.clkSr

/-- `data` after a tick (43_publisher.md R130). -/
def nextData (s : State) (samples : List (List (Lifted Bool))) : List (Lifted Word) :=
  if s.update then published s.cfg samples else s.data

/-- One tick with `rst = 0` (40_controller.md R73); in an unused phase code it is the fault PHASE_ILLEGAL (30_encoding.md
R61). -/
def controllerTick (start : Bool) (samples : List (List (Lifted Bool))) (s : State) : StepResult :=
  match s.phase with
  | .unused _ => .fault .phaseIllegal
  | .named p =>
    .next { s with
      phase := .named (nextPhase p start s.countDone)
      count := nextCount s p start
      clkSr := nextClkSr s
      data := nextData s samples }

end Sys2Proof.Machine
end

