-- ==== Sys2Proof/Machine/Coincident.lean ====
section
/-! DEFINITION. The meaning of COINC (20_memory.md R48). -/

namespace Sys2Proof.Machine

/-- The TICK part of a COINC and its RET part, both from the same state: an update tick samples `⊥` (20_memory.md R45,
R48). -/
def coincTick (start : Bool) (sdo : List Bool) (s : State) : StepResult :=
  match controllerTick start s.sampleCoincident s with
  | .next t => .next { t with sr := (s.returnEdge sdo).sr }
  | .fault f => .fault f
  | .refused r => .refused r

/-- COINC (20_memory.md R48): with `rst = 1` its RST part also sets every lane to `⊥`, whatever the RET part shifted
(70_reset_and_hazards.md R150). -/
def execCoinc (rst start : Bool) (sdo : List Bool) (s : State) : StepResult :=
  withSdo s sdo (if rst then .next s.resetRegisters else coincTick start sdo s)

end Sys2Proof.Machine
end

