-- ==== Sys2Proof/Machine/Controller.lean ====
section
/-! DEFINITION. The meanings of the twelve TICK rows (40_controller.md R74 to R85). Each row applies in the states whose key
selects it; outside IDLE `start` is ignored (R91). -/

namespace Sys2Proof.Machine

/-- IDLE_WAIT (40_controller.md R74). -/
def execIdleWait (s : State) : StepResult := tickRow .idle true s ((s.enter .idle).loadCount s.cfg.ldZero)

/-- IDLE_DRAIN (40_controller.md R75). -/
def execIdleDrain (s : State) : StepResult := tickRow .idle false s (s.enter .idle).decCount

/-- IDLE_START (40_controller.md R76). -/
def execIdleStart (s : State) : StepResult := tickRow .idle true s ((s.enter .cnvh).loadCount s.cfg.ldCnvh)

/-- IDLE_START_EARLY (40_controller.md R77): the phase changes and the load is lost. -/
def execIdleStartEarly (s : State) : StepResult := tickRow .idle false s (s.enter .cnvh).decCount

/-- CNVH_HOLD (40_controller.md R78). -/
def execCnvhHold (_start : Bool) (s : State) : StepResult := tickRow .cnvh false s (s.enter .cnvh).decCount

/-- CNVH_END (40_controller.md R79). -/
def execCnvhEnd (_start : Bool) (s : State) : StepResult := tickRow .cnvh true s ((s.enter .conv).loadCount s.cfg.ldConv)

/-- CONV_HOLD (40_controller.md R80). -/
def execConvHold (_start : Bool) (s : State) : StepResult := tickRow .conv false s (s.enter .conv).decCount

/-- CONV_END (40_controller.md R81). -/
def execConvEnd (_start : Bool) (s : State) : StepResult := tickRow .conv true s ((s.enter .read).loadCount s.cfg.ldRead)

/-- READ_SHIFT (40_controller.md R82). -/
def execReadShift (_start : Bool) (s : State) : StepResult :=
  tickRow .read false s ((s.enter .read).decCount).rotateClock

/-- READ_END (40_controller.md R83). -/
def execReadEnd (_start : Bool) (s : State) : StepResult :=
  tickRow .read true s (((s.enter .rtt).loadCount s.cfg.ldRtt).rotateClock)

/-- RTT_HOLD (40_controller.md R84). -/
def execRttHold (_start : Bool) (s : State) : StepResult := tickRow .rtt false s (s.enter .rtt).decCount

/-- RTT_UPDATE (40_controller.md R85, 43_publisher.md R130). -/
def execRttUpdate (_start : Bool) (s : State) : StepResult :=
  tickRow .rtt true s (((s.enter .idle).loadCount s.cfg.ldZero).latch s.sampleOrdered)

end Sys2Proof.Machine
end

