-- ==== Sys2Proof/Machine/Deserializer.lean ====
section
/-! DEFINITION. The meaning of RET (42_deserializer.md R111, R112). -/

namespace Sys2Proof.Machine

/-- RET: every lane shifts, whatever the phase (42_deserializer.md R111, R112). -/
def execRet (sdo : List Bool) (s : State) : StepResult := withSdo s sdo (.next (s.returnEdge sdo))

end Sys2Proof.Machine
end

