-- ==== Sys2Proof/Machine/ResetOp.lean ====
section
/-! DEFINITION. The meaning of RST (70_reset_and_hazards.md R150, R151). -/

namespace Sys2Proof.Machine

/-- RST: every register takes its reset value, in every state (70_reset_and_hazards.md R150). -/
def execRst (s : State) : StepResult := .next s.resetRegisters

end Sys2Proof.Machine
end

