-- ==== Sys2Proof/Machine/Dispatch.lean ====
section
/-! DEFINITION. One arm for each row of spec/opcode_table.json. -/

namespace Sys2Proof.Machine

def exec (i : Instr) (s : State) : Host.Outcome State Fault Refusal :=
  match i with
  | .idleWait => Sys2Proof.Machine.execIdleWait s
  | .idleDrain => Sys2Proof.Machine.execIdleDrain s
  | .idleStart => Sys2Proof.Machine.execIdleStart s
  | .idleStartEarly => Sys2Proof.Machine.execIdleStartEarly s
  | .cnvhHold start => Sys2Proof.Machine.execCnvhHold start s
  | .cnvhEnd start => Sys2Proof.Machine.execCnvhEnd start s
  | .convHold start => Sys2Proof.Machine.execConvHold start s
  | .convEnd start => Sys2Proof.Machine.execConvEnd start s
  | .readShift start => Sys2Proof.Machine.execReadShift start s
  | .readEnd start => Sys2Proof.Machine.execReadEnd start s
  | .rttHold start => Sys2Proof.Machine.execRttHold start s
  | .rttUpdate start => Sys2Proof.Machine.execRttUpdate start s
  | .rst => Sys2Proof.Machine.execRst s
  | .ret sdo => Sys2Proof.Machine.execRet sdo s
  | .coinc rst start sdo => Sys2Proof.Machine.execCoinc rst start sdo s

end Sys2Proof.Machine
end

