-- ==== Sys2Proof/Machine/Construct.lean ====
section
/-! DEFINITION. Construction: the checks that refuse an `AdcParams` tuple (60_exceptions.md R136, R137), the checks of the
spec's own parameters, and the block that a legal tuple builds (70_reset_and_hazards.md R154). -/

namespace Sys2Proof.Machine

/-- The code of a check that fails. -/
def codeIf (fails : Bool) (e : ConfigError) : List ConfigError := if fails then [e] else []

/-- Every violated condition of 60_exceptions.md R136. Divisibility is not evaluated when `lanes = 0`. -/
def violations (t : AdcTuple) : List ConfigError :=
  codeIf (decide (t.channels < 1)) .eChannels
    ++ codeIf (decide (t.lanes < 1)) .eLanes
    ++ codeIf (decide (t.lanes ≠ 0 ∧ t.channels % t.lanes ≠ 0)) .eDivide
    ++ codeIf (decide (t.width < 1)) .eWidth
    ++ codeIf (decide (t.tCnvh < 1)) .eTCnvh
    ++ codeIf (decide (t.tConv < 2)) .eTConv
    ++ codeIf (decide (t.tRtt < 1)) .eTRtt

/-- The tuple of integers a block's parameters came from. -/
def adcTuple (p : AdcParams) : AdcTuple :=
  { channels := p.channels, lanes := p.lanes, width := p.width, tCnvh := p.tCnvh, tConv := p.tConv, tRtt := p.tRtt }

/-- The parameters that a tuple of positive integers names. -/
def adcOfTuple (t : AdcTuple) : AdcParams :=
  { channels := t.channels.toNat, lanes := t.lanes.toNat, width := t.width.toNat, tCnvh := t.tCnvh.toNat,
    tConv := t.tConv.toNat, tRtt := t.tRtt.toNat }

/-- `SEED` has exactly three bits set (41_clock_synth.md R100). -/
def seedOk (seed : BitVec 6) : Bool := (List.range 6).countP (fun i => seed.getLsbD i) == 3

/-- `DEINT` is total on (channel, bit), stays inside the lane registers, and is injective (43_publisher.md R121,
92_eei_decisions.md D10). The default map is all three (43_publisher.md R127). -/
def deintOk (c : Config) : Bool :=
  match c.deint with
  | .standard => true
  | .table rows =>
    rows.length == c.adc.channels
      && rows.all (fun row => row.length == c.adc.width)
      && rows.flatten.all (fun e => decide (e.1 < c.adc.lanes ∧ e.2 < c.srDepth))
      && decide rows.flatten.Nodup

/-- The conditions of 00_scope.md R7 on a block's parameters. -/
abbrev AdcValid (p : AdcParams) : Prop :=
  1 ≤ p.channels ∧ 1 ≤ p.lanes ∧ p.channels % p.lanes = 0 ∧ 1 ≤ p.width ∧ 1 ≤ p.tCnvh ∧ 2 ≤ p.tConv ∧ 1 ≤ p.tRtt

/-- A configuration that a block can have: R7, R100, R121, and an injective `PHASE_CODE` (R65) and a sufficient `CW` (R96). -/
abbrev ConfigValid (c : Config) : Prop :=
  AdcValid c.adc ∧ seedOk c.seed = true ∧ deintOk c = true ∧ phaseCodeOk c.phaseCode = true ∧ counterWidthOk c = true

/-- Why there is no block with this configuration, if there is none. -/
def configRefusal (c : Config) : Option Refusal :=
  if violations (adcTuple c.adc) ≠ [] then some (.configError (violations (adcTuple c.adc)))
  else if seedOk c.seed = false then some .seedPattern
  else if deintOk c = false then some .deintMap
  else if phaseCodeOk c.phaseCode = false then some .phaseCode
  else if counterWidthOk c = false then some .counterWidth
  else none

/-- Construction from a tuple (60_exceptions.md R136, R137): the power-on state, or the set of every violated code. The
spec's own parameters keep their defaults. -/
def construct (t : AdcTuple) : Except (List ConfigError) State :=
  if violations t = [] then .ok (State.powerOn { adc := adcOfTuple t }) else .error (violations t)

end Sys2Proof.Machine
end

