-- ==== Sys2Proof/Machine/Fetch.lean ====
section
/-! DEFINITION. How the next operation of the trace becomes an instruction: the operation's word is put together from its
inputs and, for a TICK or RST, from the phase register and `count_done` (30_encoding.md R57), and decoded. And the reverse:
how a table word is placed so that the next step runs it. -/

namespace Sys2Proof.Machine

/-- The transition key of a controller tick in state `s` (30_encoding.md R57). -/
def State.key (s : State) (rst start : Bool) : BitVec 6 :=
  transitionKey rst (phaseRegCode s.cfg.phaseCode s.phase) start s.countDone

/-- The word of an operation in state `s`. -/
def operationWord (s : State) : Op → List Byte
  | .tick start => keyWord (s.key false start)
  | .rst => keyWord (s.key true false)
  | .ret sdo => retWord sdo
  | .coinc rst start sdo => coincWord rst start sdo

/-- The trace without its next operation. -/
def State.consume (s : State) (rest : List Op) : State := { s with trace := rest }

/-- The next instruction, and the state in which it runs: its operation is taken from the trace. A configuration that builds
no block has no operation (30_encoding.md R62). -/
def fetch (s : State) : Host.Outcome (Instr × State) Fault Refusal :=
  match configRefusal s.cfg with
  | some r => .refused r
  | none =>
    match s.trace with
    | [] => .refused .noOperation
    | op :: rest =>
      if op.wellFormed s.cfg.adc.lanes then
        match decode s.cfg.phaseCode s.cfg.adc.lanes (operationWord s op) with
        | .ok (i, _) => .next (i, s.consume rest)
        | .error .phaseIllegal => .fault .phaseIllegal
        | .error e => .refused (.undecodable e)
      else .refused .laneCount

/-- The operation `op` placed next in the trace. -/
def State.present (s : State) (op : Op) : State := { s with trace := op :: s.trace }

/-- A controller key placed for the next step: the operation it stands for and, unless `rst = 1` makes them ignored, the
phase of its code and a counter that agrees with its `count_done`. -/
def State.placeKey (s : State) (key : BitVec 6) : State :=
  if key.getLsbD 5 then s.present .rst
  else
    { s with
      phase := phaseRegOfCode s.cfg.phaseCode (key.extractLsb' 2 3)
      count := if key.getLsbD 0 then 0 else max 1 s.count
      trace := .tick (key.getLsbD 1) :: s.trace }

/-- An operation word placed for the next step. -/
def State.placeWord (s : State) : List Byte → State
  | [] => s
  | b :: rest =>
    if b.extractLsb' 6 2 = edgesController then s.placeKey (b.extractLsb' 0 6)
    else if b.extractLsb' 6 2 = edgesReturn then s.present (.ret (unpackSdo s.cfg.adc.lanes rest))
    else if b.extractLsb' 6 2 = edgesBoth then
      s.present (.coinc (b.getLsbD 5) (b.getLsbD 1) (unpackSdo s.cfg.adc.lanes rest))
    else s

end Sys2Proof.Machine
end

