-- ==== Sys2Proof/Machine/Step.lean ====
section
/-! DEFINITION. One step: the next operation of the trace, fetched and run. -/

namespace Sys2Proof.Machine

/-- One operation of the run (20_memory.md R47). -/
def step (s : State) : Host.Outcome State Fault Refusal :=
  match fetch s with
  | .next (i, t) => exec i t
  | .fault f => .fault f
  | .refused r => .refused r

/-- `s` with the instruction of a table word as the next one to run (notes/assumptions/3.md). -/
def State.withFetchWord (s : State) (nbits w : Nat) : State :=
  s.placeWord (tableBytes s.cfg.adc.lanes nbits w)

end Sys2Proof.Machine
end

