-- ==== Sys2Proof/Machine/Stimulus.lean ====
section
/-! DEFINITION. Stimulus traces as data: the pseudo-operations of 30_encoding.md R67, and the text lines of R66. -/

namespace Sys2Proof.Machine

/-- `ticks n` (30_encoding.md R67). -/
def ticks (n : Nat) : List Op := List.replicate n (.tick false)

/-- `acquire` (30_encoding.md R67): `tick start`, then `ticks N`. -/
def acquire (c : Config) : List Op := .tick true :: ticks c.acquisitionCycles

/-- Bit `b` of the transmitted word `ch`. -/
def transmittedBit (x : List Word) (ch b : Nat) : Bool :=
  match x[ch]? with
  | some w => w.bits.getLsbD b
  | none => false

/-- The lane levels of return edge `m` of a transfer of the words `x`: lane p carries bit `W - 1 - (m mod W)` of word
`g * k + m div W`, where `g = L - 1 - p` (30_encoding.md R67, 20_memory.md R46). -/
def transferLine (c : Config) (x : List Word) (m : Nat) : List Bool :=
  (List.range c.adc.lanes).map fun p =>
    transmittedBit x ((c.adc.lanes - 1 - p) * c.wordsPerLane + m / c.adc.width) (c.adc.width - 1 - m % c.adc.width)

/-- The lane levels of the `k * W` return edges of a transfer, in order. -/
def transferLines (c : Config) (x : List Word) : List (List Bool) :=
  (List.range c.windowBits).map (transferLine c x)

/-- `send x` (30_encoding.md R67). -/
def send (c : Config) (x : List Word) : List Op := (transferLines c x).map .ret

/-! ## The text lines of R66

Lines are lists of characters. -/

/-- The line up to its comment: a `;` starts one (30_encoding.md R66). -/
def stripComment (line : List Char) : List Char := line.takeWhile (fun ch => ch != ';')

/-- The tokens of a line, separated by spaces; `cur` is the token being read, last character first. -/
def tokensFrom (cur : List Char) : List Char → List (List Char)
  | [] => if cur.isEmpty then [] else [cur.reverse]
  | ch :: rest =>
    if ch = ' ' then
      if cur.isEmpty then tokensFrom [] rest else cur.reverse :: tokensFrom [] rest
    else tokensFrom (ch :: cur) rest

/-- One lane level for each digit (30_encoding.md R66: the digit for lane p comes in position p from the left). -/
def readLevels : List Char → Option (List Bool)
  | [] => some []
  | ch :: rest =>
    match readLevels rest with
    | none => none
    | some bs => if ch = '0' then some (false :: bs) else if ch = '1' then some (true :: bs) else none

/-- The `sdo` digits of a block with `lanes` lanes. -/
def readSdo (lanes : Nat) (digits : List Char) : Option (List Bool) :=
  match readLevels digits with
  | some bs => if bs.length = lanes then some bs else none
  | none => none

/-- A decimal number, continued from `acc`. -/
def readDecimal (acc : Nat) : List Char → Option Nat
  | [] => some acc
  | ch :: rest => if '0' ≤ ch ∧ ch ≤ '9' then readDecimal (10 * acc + (ch.toNat - 48)) rest else none

def kwTick : List Char := ['t', 'i', 'c', 'k']
def kwStart : List Char := ['s', 't', 'a', 'r', 't']
def kwReset : List Char := ['r', 'e', 's', 'e', 't']
def kwRet : List Char := ['r', 'e', 't']
def kwCoinc : List Char := ['c', 'o', 'i', 'n', 'c']
def kwTicks : List Char := ['t', 'i', 'c', 'k', 's']
def kwAcquire : List Char := ['a', 'c', 'q', 'u', 'i', 'r', 'e']

/-- The operations of a line without operand digits (30_encoding.md R66, R67). -/
def readPlain (c : Config) (head : List Char) : Option (List Op) :=
  if head = kwTick then some [.tick false]
  else if head = kwReset then some [.rst]
  else if head = kwAcquire then some (acquire c)
  else none

/-- The operations of a line with one operand (30_encoding.md R66, R67). -/
def readWithOperand (c : Config) (head operand : List Char) : Option (List Op) :=
  if head = kwTick then (if operand = kwStart then some [.tick true] else none)
  else if head = kwRet then (readSdo c.adc.lanes operand).map fun sdo => [.ret sdo]
  else if head = kwCoinc then (readSdo c.adc.lanes operand).map fun sdo => [.coinc false false sdo]
  else if head = kwTicks then (readDecimal 0 operand).map ticks
  else none

/-- The operations of `coinc start …` and `coinc reset …` (30_encoding.md R66). -/
def readCoinc (c : Config) (part digits : List Char) : Option (List Op) :=
  if part = kwStart then (readSdo c.adc.lanes digits).map fun sdo => [.coinc false true sdo]
  else if part = kwReset then (readSdo c.adc.lanes digits).map fun sdo => [.coinc true false sdo]
  else none

/-- The operations of one line; `none` when it is no line of the notation. -/
def readLine (c : Config) (line : List Char) : Option (List Op) :=
  match tokensFrom [] (stripComment line) with
  | [] => some []
  | [head] => readPlain c head
  | [head, operand] => readWithOperand c head operand
  | [head, part, digits] => if head = kwCoinc then readCoinc c part digits else none
  | _ => none

/-- The trace that lines of text stand for (30_encoding.md R66). -/
def readTrace (c : Config) : List (List Char) → Option (List Op)
  | [] => some []
  | line :: rest =>
    match readLine c line, readTrace c rest with
    | some ops, some more => some (ops ++ more)
    | _, _ => none

/-- The digit of a lane level. -/
def levelDigit (b : Bool) : Char := if b then '1' else '0'

/-- The line of an operation (30_encoding.md R66). A coincident reset is written without its ignored `start`. -/
def writeLine : Op → List Char
  | .tick start => if start then kwTick ++ ' ' :: kwStart else kwTick
  | .rst => kwReset
  | .ret sdo => kwRet ++ ' ' :: sdo.map levelDigit
  | .coinc rst start sdo =>
    if rst then kwCoinc ++ ' ' :: (kwReset ++ ' ' :: sdo.map levelDigit)
    else if start then kwCoinc ++ ' ' :: (kwStart ++ ' ' :: sdo.map levelDigit)
    else kwCoinc ++ ' ' :: sdo.map levelDigit

end Sys2Proof.Machine
end

