-- ==== Sys2Proof/Safety.lean ====
section
/-! DEFINITION. The terms in which claims are stated: what is read off a trace, the invariants of the state, the schedule of
an acquisition, the transfer premise, and what counts as a run that cannot stop early. -/

namespace Sys2Proof.Safety

open Sys2Proof.Machine

/-! ## Traces -/

/-- The operation has a controller tick with `rst = 1`. -/
def isReset : Op → Bool
  | .tick _ => false
  | .rst => true
  | .ret _ => false
  | .coinc rst _ _ => rst

/-- The `start` input of an operation's controller tick with `rst = 0`; `none` when it has none. -/
def tickStart : Op → Option Bool
  | .tick start => some start
  | .rst => none
  | .ret _ => none
  | .coinc rst start _ => if rst then none else some start

/-- The lane levels of an operation's return edge: a RET, or the return part of a COINC. -/
def edgeLevels : Op → Option (List Bool)
  | .tick _ => none
  | .rst => none
  | .ret sdo => some sdo
  | .coinc _ _ sdo => some sdo

/-- The return edges of a trace, in order. -/
def returnEdges (ops : List Op) : List (List Bool) := ops.filterMap edgeLevels

/-- How many controller ticks with `rst = 0` a trace has. -/
def tickCount (ops : List Op) : Nat := (ops.filterMap tickStart).length

/-- The instruction is a TICK row (30_encoding.md R60). -/
def isTickRow : Instr → Bool
  | .idleWait => true
  | .idleDrain => true
  | .idleStart => true
  | .idleStartEarly => true
  | .cnvhHold _ => true
  | .cnvhEnd _ => true
  | .convHold _ => true
  | .convEnd _ => true
  | .readShift _ => true
  | .readEnd _ => true
  | .rttHold _ => true
  | .rttUpdate _ => true
  | .rst => false
  | .ret _ => false
  | .coinc _ _ _ => false

/-- Every operation is one of a block with configuration `c`, and none of them resets it. -/
def resetFree (c : Config) (ops : List Op) : Bool := ops.all fun op => op.wellFormed c.adc.lanes && !isReset op

/-- The transfer premise P_XFER (20_memory.md R46) on the operations before the update tick: the last `k * W` return edges
carry the words `x`. Return edges of COINC operations count; see notes/assumptions/12.md. Its first clause, that the update
tick is no COINC, is stated of that tick. -/
def PXfer (c : Config) (x : List Word) (ops : List Op) : Prop := transferLines c x <:+ returnEdges ops

/-- The words `x` are C words of W bits. -/
def areChannelWords (c : Config) (x : List Word) : Bool :=
  x.length == c.adc.channels && x.all fun w => w.width == c.adc.width

/-- The condition under which construction reports a code (60_exceptions.md R136). -/
def violates (t : AdcTuple) : ConfigError → Prop
  | .eChannels => t.channels < 1
  | .eLanes => t.lanes < 1
  | .eDivide => t.lanes ≠ 0 ∧ ¬ t.lanes ∣ t.channels
  | .eWidth => t.width < 1
  | .eTCnvh => t.tCnvh < 1
  | .eTConv => t.tConv < 2
  | .eTRtt => t.tRtt < 1

/-! ## Invariants -/

/-- The register holds the code of a phase (30_encoding.md R61). -/
def legalPhase : PhaseReg → Bool
  | .named _ => true
  | .unused _ => false

/-- A content of `data` is `⊥` or a word of `w` bits. -/
def contentFits (w : Nat) : Lifted Word → Bool
  | .bot => true
  | .val v => v.width == w

/-- The registers have the counts and widths of 10_state.md R20: L lanes of D bits, C words of W bits. -/
abbrev WellShaped (s : State) : Prop :=
  s.sr.length = s.cfg.adc.lanes ∧ (∀ lane ∈ s.sr, lane.length = s.cfg.srDepth)
    ∧ s.data.length = s.cfg.adc.channels ∧ ∀ w ∈ s.data, contentFits s.cfg.adc.width w = true

/-- The counter stays in its range (10_state.md R23, 40_controller.md R96) and the phase is legal (30_encoding.md R61). -/
abbrev SequencerBounded (s : State) : Prop := legalPhase s.phase = true ∧ s.count ≤ s.cfg.countMax

/-- The phase invariant of the clock register (41_clock_synth.md R105). -/
abbrev ClockPhase (s : State) : Prop :=
  (s.phase ≠ .named .read → s.clkSr = s.cfg.seed)
    ∧ (s.phase = .named .read →
        s.count < s.cfg.readDuration
          ∧ s.clkSr = rotl6 s.cfg.seed (2 * ((s.cfg.readDuration - 1 - s.count) % 3)))

/-- IDLE holds only with the counter at 0 (40_controller.md R95). -/
abbrev IdleAtZero (s : State) : Prop := s.phase = .named .idle → s.count = 0

/-! ## Runs -/

/-- A state from which the run cannot stop before its trace ends: the block exists, its phase is legal, and every operation
to come is one of this block. -/
abbrev SafeState (s : State) : Prop :=
  ConfigValid s.cfg ∧ legalPhase s.phase = true ∧ ∀ op ∈ s.trace, op.wellFormed s.cfg.adc.lanes = true

/-- Phase and counter after `n` ticks of an acquisition, counted from the tick that sampled `start` in IDLE with the counter
at 0 (40_controller.md R93), for `n` from 0 to N. -/
def schedule (c : Config) (n : Nat) : Phase × Nat :=
  if n < c.adc.tCnvh then (.cnvh, c.adc.tCnvh - 1 - n)
  else if n < c.adc.tCnvh + c.adc.tConv then (.conv, c.adc.tCnvh + c.adc.tConv - 1 - n)
  else if n < c.adc.tCnvh + c.adc.tConv + c.readDuration then
    (.read, c.adc.tCnvh + c.adc.tConv + c.readDuration - 1 - n)
  else if n < c.acquisitionCycles then (.rtt, c.acquisitionCycles - 1 - n)
  else (.idle, 0)

/-- The state after the operations `ops` and nothing else, from `s`. -/
def runOps (ops : List Op) (s : State) : StepResult :=
  Host.Core.run Sys2Proof.core ops.length { s with trace := ops }

/-- The next state of a result, when there is one. -/
def nextState? : StepResult → Option State
  | .next s => some s
  | .fault _ => none
  | .refused _ => none

/-- A published word is defined: what a claim about its number needs (10_state.md R33). -/
abbrev ReadIsDefined (s : State) (ch : Nat) : Prop := (s.dataAt ch).isVal = true

end Sys2Proof.Safety
end

