-- ==== Sys2Proof/Certificates/Slice0/Obligations.lean ====
section
/-! DEFINITION. The statements for the provers. Each docstring names the rule of the spec that the statement formalises. -/

open Sys2Proof Sys2Proof.Machine Sys2Proof.Safety

/-! ## The TICK rows -/

/-- 40_controller.md R74 (IDLE_WAIT): in IDLE with `count = 0` and `start = 0`, every register keeps its value. -/
def Obligations.IdleWaitKeepsEveryRegister : Prop :=
  ∀ s : State, s.phase = .named .idle → s.count = 0 →
    decodeKey s.cfg.phaseCode (s.key false false) = .ok .idleWait
      ∧ (s.cfg.phaseCode = {} → s.key false false = 0b000001#6) ∧ exec .idleWait s = .next s
      ∧ s.done = true ∧ s.cnv = false ∧ s.reading = false ∧ s.update = false ∧ s.sckEn = false

/-- 40_controller.md section 2, IDLE_DRAIN: only the counter changes, and it is decremented. -/
def Obligations.IdleDrainDecrementsTheCounter : Prop :=
  ∀ s : State, s.phase = .named .idle → s.count ≠ 0 →
    decodeKey s.cfg.phaseCode (s.key false false) = .ok .idleDrain
      ∧ (s.cfg.phaseCode = {} → s.key false false = 0b000000#6)
      ∧ exec .idleDrain s = .next { s with count := s.count - 1 }
      ∧ s.done = true ∧ s.cnv = false ∧ s.reading = false ∧ s.update = false ∧ s.sckEn = false

/-- 40_controller.md R76 (IDLE_START): CNVH is entered with `t_cnvh - 1`; with `t_cnvh = 1` that is 0
and the next tick ends CNVH. -/
def Obligations.IdleStartEntersCnvh : Prop :=
  ∀ s : State, s.phase = .named .idle → s.count = 0 →
    decodeKey s.cfg.phaseCode (s.key false true) = .ok .idleStart
      ∧ (s.cfg.phaseCode = {} → s.key false true = 0b000011#6) ∧ s.done = true ∧
      ∃ t, exec .idleStart s = .next t
        ∧ t = { s with phase := .named .cnvh, count := s.cfg.adc.tCnvh - 1 }
        ∧ t.done = false ∧ t.cnv = true
        ∧ (s.cfg.adc.tCnvh = 1 → t.count = 0 ∧ (phaseCodeOk s.cfg.phaseCode = true →
            ∀ start, decodeKey s.cfg.phaseCode (t.key false start) = .ok (.cnvhEnd start)))

/-- 40_controller.md section 2, IDLE_START_EARLY: the phase changes and the load of `LD_CNVH` does not take effect. -/
def Obligations.IdleStartEarlyLosesTheLoad : Prop :=
  ∀ s : State, s.phase = .named .idle → s.count ≠ 0 →
    decodeKey s.cfg.phaseCode (s.key false true) = .ok .idleStartEarly
      ∧ (s.cfg.phaseCode = {} → s.key false true = 0b000010#6) ∧ s.done = true ∧
      ∃ t, exec .idleStartEarly s = .next t
        ∧ t = { s with phase := .named .cnvh, count := s.count - 1 } ∧ t.done = false ∧ t.cnv = true

/-- 40_controller.md section 2, CNVH_HOLD, for both values of the ignored `start`. -/
def Obligations.CnvhHoldDecrementsTheCounter : Prop :=
  ∀ (s : State) (start : Bool), s.phase = .named .cnvh → s.count ≠ 0 →
    (phaseCodeOk s.cfg.phaseCode = true → decodeKey s.cfg.phaseCode (s.key false start) = .ok (.cnvhHold start))
      ∧ (s.cfg.phaseCode = {} → s.key false start &&& 0b111101#6 = 0b000100#6)
      ∧ exec (.cnvhHold start) s = .next { s with count := s.count - 1 }
      ∧ s.cnv = true ∧ s.done = false ∧ s.reading = false

/-- 40_controller.md R79 (CNVH_END), for both values of the ignored `start`. -/
def Obligations.CnvhEndEntersConv : Prop :=
  ∀ (s : State) (start : Bool), s.phase = .named .cnvh → s.count = 0 →
    (phaseCodeOk s.cfg.phaseCode = true → decodeKey s.cfg.phaseCode (s.key false start) = .ok (.cnvhEnd start))
      ∧ (s.cfg.phaseCode = {} → s.key false start &&& 0b111101#6 = 0b000101#6)
      ∧ s.cnv = true ∧
      ∃ t, exec (.cnvhEnd start) s = .next t
        ∧ t = { s with phase := .named .conv, count := s.cfg.adc.tConv - 1 }
        ∧ t.cnv = false ∧ (ConfigValid s.cfg → 1 ≤ t.count)

/-- 40_controller.md section 2, CONV_HOLD, for both values of the ignored `start`. -/
def Obligations.ConvHoldDecrementsTheCounter : Prop :=
  ∀ (s : State) (start : Bool), s.phase = .named .conv → s.count ≠ 0 →
    (phaseCodeOk s.cfg.phaseCode = true → decodeKey s.cfg.phaseCode (s.key false start) = .ok (.convHold start))
      ∧ (s.cfg.phaseCode = {} → s.key false start &&& 0b111101#6 = 0b001000#6)
      ∧ exec (.convHold start) s = .next { s with count := s.count - 1 }
      ∧ s.done = false ∧ s.cnv = false ∧ s.reading = false

/-- 40_controller.md R81 (CONV_END): READ is entered with `3*W*C/L - 1`, at least 2, for both values of `start`. -/
def Obligations.ConvEndEntersRead : Prop :=
  ∀ (s : State) (start : Bool), s.phase = .named .conv → s.count = 0 →
    (phaseCodeOk s.cfg.phaseCode = true → decodeKey s.cfg.phaseCode (s.key false start) = .ok (.convEnd start))
      ∧ (s.cfg.phaseCode = {} → s.key false start &&& 0b111101#6 = 0b001001#6) ∧
    ∃ t, exec (.convEnd start) s = .next t
      ∧ t = { s with
          phase := .named .read
          count := 3 * s.cfg.adc.width * s.cfg.adc.channels / s.cfg.adc.lanes - 1 }
      ∧ t.reading = true ∧ t.sckEn = true ∧ (ConfigValid s.cfg → 2 ≤ t.count)

/-- 40_controller.md section 2, READ_SHIFT: the counter is decremented and `clk_sr` rotates left by two. -/
def Obligations.ReadShiftRotatesTheClock : Prop :=
  ∀ (s : State) (start : Bool), s.phase = .named .read → s.count ≠ 0 →
    (phaseCodeOk s.cfg.phaseCode = true → decodeKey s.cfg.phaseCode (s.key false start) = .ok (.readShift start))
      ∧ (s.cfg.phaseCode = {} → s.key false start &&& 0b111101#6 = 0b001100#6)
      ∧ exec (.readShift start) s =
        .next { s with count := s.count - 1, clkSr := s.clkSr.extractLsb' 0 4 ++ s.clkSr.extractLsb' 4 2 }
      ∧ s.reading = true ∧ s.sckEn = true ∧ s.done = false

/-- 40_controller.md R83 (READ_END): RTT is entered with `t_rtt - 1` after a last rotation, which on a block that keeps the
phase invariant restores SEED. -/
def Obligations.ReadEndEntersRtt : Prop :=
  ∀ (s : State) (start : Bool), s.phase = .named .read → s.count = 0 →
    (phaseCodeOk s.cfg.phaseCode = true → decodeKey s.cfg.phaseCode (s.key false start) = .ok (.readEnd start))
      ∧ (s.cfg.phaseCode = {} → s.key false start &&& 0b111101#6 = 0b001101#6)
      ∧ s.sckEn = true ∧
      ∃ t, exec (.readEnd start) s = .next t
        ∧ t = { s with
            phase := .named .rtt
            count := s.cfg.adc.tRtt - 1
            clkSr := s.clkSr.extractLsb' 0 4 ++ s.clkSr.extractLsb' 4 2 }
        ∧ t.sckEn = false ∧ t.reading = true
        ∧ (ConfigValid s.cfg → ClockPhase s → t.clkSr = s.cfg.seed)

/-- 40_controller.md section 2, RTT_HOLD, for both values of the ignored `start`. -/
def Obligations.RttHoldDecrementsTheCounter : Prop :=
  ∀ (s : State) (start : Bool), s.phase = .named .rtt → s.count ≠ 0 →
    (phaseCodeOk s.cfg.phaseCode = true → decodeKey s.cfg.phaseCode (s.key false start) = .ok (.rttHold start))
      ∧ (s.cfg.phaseCode = {} → s.key false start &&& 0b111101#6 = 0b010000#6)
      ∧ exec (.rttHold start) s = .next { s with count := s.count - 1 }
      ∧ s.reading = true ∧ s.sckEn = false ∧ s.update = false

/-- 40_controller.md R85 (RTT_UPDATE): IDLE is entered with the counter at 0 and every word is latched at once, for both
values of the ignored `start`; `update` is 1 in this cycle and 0 in the next. -/
def Obligations.RttUpdatePublishes : Prop :=
  ∀ (s : State) (start : Bool), s.phase = .named .rtt → s.count = 0 →
    (phaseCodeOk s.cfg.phaseCode = true → decodeKey s.cfg.phaseCode (s.key false start) = .ok (.rttUpdate start))
      ∧ (s.cfg.phaseCode = {} → s.key false start &&& 0b111101#6 = 0b010001#6)
      ∧ s.update = true ∧ s.reading = true ∧
      ∃ t, exec (.rttUpdate start) s = .next t
        ∧ t = { s with
            phase := .named .idle
            count := 0
            data := (List.range s.cfg.adc.channels).map fun ch => publishWord (rawBits s.cfg s.sr ch) }
        ∧ t.done = true ∧ t.update = false

/-! ## RST, RET and COINC -/

/-- 70_reset_and_hazards.md R150 and R151 (RST): `rst = 1` selects RST whatever the state and the other inputs are; every
register takes its reset value, at an update tick too, and the RST part of a COINC does the same whatever the RET part
shifted. -/
def Obligations.RstWritesEveryRegister : Prop :=
  ∀ s : State, (∀ start, decodeKey s.cfg.phaseCode (s.key true start) = .ok .rst) ∧ ∃ t,
    t = { s with
      phase := .named .idle
      count := s.cfg.countReset
      clkSr := s.cfg.seed
      data := List.replicate s.cfg.adc.channels .bot
      sr := List.replicate s.cfg.adc.lanes (List.replicate s.cfg.srDepth .bot) }
    ∧ exec .rst s = .next t
    ∧ t.done = true ∧ t.cnv = false ∧ t.reading = false ∧ t.sckEn = false ∧ t.update = false
    ∧ ∀ (start : Bool) (sdo : List Bool), sdo.length = s.cfg.adc.lanes → exec (.coinc true start sdo) s = .next t

/-- 70_reset_and_hazards.md R152 and 10_state.md R34: the power-on state is the state after RST, and what it shows. -/
def Obligations.PowerOnIsTheStateAfterRst : Prop :=
  ∀ s : State,
    exec .rst s = .next { State.powerOn s.cfg with trace := s.trace }
      ∧ State.powerOn s.cfg =
          { cfg := s.cfg, phase := .named .idle, count := s.cfg.countReset, clkSr := s.cfg.seed,
            data := List.replicate s.cfg.adc.channels .bot,
            sr := List.replicate s.cfg.adc.lanes (List.replicate s.cfg.srDepth .bot), trace := [] }
      ∧ (State.powerOn s.cfg).outputs =
          { done := true, reading := false, cnv := false, sck := ddrLevels s.cfg.ddr s.cfg.seed,
            data := List.replicate s.cfg.adc.channels .bot }
      ∧ (s.cfg.seed = 0b111000#6 → (State.powerOn s.cfg).sck = (false, false))

/-- 42_deserializer.md R111 (RET): at one edge every lane shifts left by one with its own level at bit 0, the old top bit is
lost, and no controller register changes. -/
def Obligations.RetShiftsEveryLane : Prop :=
  ∀ (s : State) (sdo : List Bool), sdo.length = s.cfg.adc.lanes →
    ∃ t, exec (.ret sdo) s = .next t
      ∧ t = { s with sr := t.sr }
      ∧ t.sr.length = s.sr.length
      ∧ ∀ (p : Nat) (lane : List (Lifted Bool)) (level : Bool), s.sr[p]? = some lane → sdo[p]? = some level →
          ∃ lane', t.sr[p]? = some lane' ∧ lane'.length = lane.length
            ∧ (0 < lane.length → lane'[0]? = some (.val level))
            ∧ ∀ q, q + 1 < lane.length → lane'[q + 1]? = lane[q]?

/-- 30_encoding.md section 2 (the `sdo` operand): a vector of another length is no operand of the block, and RET and COINC
stop by name on it. The stop is the model's (notes/assumptions/9.md). -/
def Obligations.OtherLaneCountsAreNoOperand : Prop :=
  ∀ (s : State) (sdo : List Bool) (rst start : Bool), sdo.length ≠ s.cfg.adc.lanes →
    exec (.ret sdo) s = .refused .laneCount ∧ exec (.coinc rst start sdo) s = .refused .laneCount

/-- 20_memory.md R48 (COINC): the TICK or RST rule and the RET rule applied to the same state; an update tick publishes `⊥`
in every word. -/
def Obligations.CoincIsTickAndReturnOfOneState : Prop :=
  ∀ (s : State) (start : Bool) (sdo : List Bool), ConfigValid s.cfg → sdo.length = s.cfg.adc.lanes →
    exec (.coinc true start sdo) s = exec .rst s
      ∧ (legalPhase s.phase = true →
          ∃ i t u, decodeKey s.cfg.phaseCode (s.key false start) = .ok i ∧ exec i s = .next t ∧ exec (.ret sdo) s = .next u
            ∧ (s.update = false → exec (.coinc false start sdo) s = .next { t with sr := u.sr })
            ∧ (s.update = true →
                exec (.coinc false start sdo) s =
                  .next { t with sr := u.sr, data := List.replicate s.cfg.adc.channels .bot }))

/-! ## Keys, words and steps -/

/-- 30_encoding.md R57: where the fields of the transition key of a tick lie, and how a key selects a row. -/
def Obligations.TransitionKeyFields : Prop :=
  (∀ (s : State) (rst start : Bool),
      (s.key rst start).getLsbD 5 = rst
        ∧ (s.key rst start).extractLsb' 2 3 = phaseRegCode s.cfg.phaseCode s.phase
        ∧ (s.key rst start).getLsbD 1 = start
        ∧ (s.key rst start).getLsbD 0 = decide (s.count = 0)
        ∧ (rst = true → decodeKey s.cfg.phaseCode (s.key rst start) = .ok .rst))
    ∧ ∀ (row : KeyRow) (key : BitVec 6), row.selects key = true ↔ key &&& row.mask = row.pattern

/-- 30_encoding.md section 3 (the operation map): the keys of each row under the default `PHASE_CODE`, written out, and the keys
with a reserved code. -/
def Obligations.KeysSelectTheirRows : Prop :=
  decodeKey {} 0b000001#6 = .ok .idleWait ∧ decodeKey {} 0b000000#6 = .ok .idleDrain
    ∧ decodeKey {} 0b000011#6 = .ok .idleStart ∧ decodeKey {} 0b000010#6 = .ok .idleStartEarly
    ∧ decodeKey {} 0b000100#6 = .ok (.cnvhHold false) ∧ decodeKey {} 0b000110#6 = .ok (.cnvhHold true)
    ∧ decodeKey {} 0b000101#6 = .ok (.cnvhEnd false) ∧ decodeKey {} 0b000111#6 = .ok (.cnvhEnd true)
    ∧ decodeKey {} 0b001000#6 = .ok (.convHold false) ∧ decodeKey {} 0b001010#6 = .ok (.convHold true)
    ∧ decodeKey {} 0b001001#6 = .ok (.convEnd false) ∧ decodeKey {} 0b001011#6 = .ok (.convEnd true)
    ∧ decodeKey {} 0b001100#6 = .ok (.readShift false) ∧ decodeKey {} 0b001110#6 = .ok (.readShift true)
    ∧ decodeKey {} 0b001101#6 = .ok (.readEnd false) ∧ decodeKey {} 0b001111#6 = .ok (.readEnd true)
    ∧ decodeKey {} 0b010000#6 = .ok (.rttHold false) ∧ decodeKey {} 0b010010#6 = .ok (.rttHold true)
    ∧ decodeKey {} 0b010001#6 = .ok (.rttUpdate false) ∧ decodeKey {} 0b010011#6 = .ok (.rttUpdate true)
    ∧ ∀ key : BitVec 6, key.getLsbD 5 = false → 4#3 < key.extractLsb' 2 3 → decodeKey {} key = .error .phaseIllegal

/-- 30_encoding.md R64, for every injective `PHASE_CODE`: a key with `rst = 1` selects RST, a key with `rst = 0` and the code of a
phase exactly one row, and a key with another code none; every `sdo` of L levels is a RET. -/
def Obligations.EveryKeySelectsOneRow : Prop :=
  ∀ code : PhaseCode, phaseCodeOk code = true →
    (∀ key : BitVec 6, key.getLsbD 5 = true → decodeKey code key = .ok .rst)
      ∧ (∀ (key : BitVec 6) (p : Phase), key.getLsbD 5 = false → key.extractLsb' 2 3 = phaseCode code p →
          ((keyRows code).filter fun row => row.selects key).length = 1)
      ∧ (∀ key : BitVec 6, key.getLsbD 5 = false → (∀ p, key.extractLsb' 2 3 ≠ phaseCode code p) →
          decodeKey code key = .error .phaseIllegal)
      ∧ ∀ sdo : List Bool, decode code sdo.length (retWord sdo) = .ok (.ret sdo, [])

/-- Decode and encode agree, for every instruction of a block with any number of lanes and any injective `PHASE_CODE`
(30_encoding.md sections 1 to 3; the format bits are the model's own, notes/assumptions/7.md). -/
def Obligations.DecodeOfEncodeIsTheInstruction : Prop :=
  ∀ (code : PhaseCode) (lanes : Nat) (i : Instr) (after : List Byte), phaseCodeOk code = true →
    i.wellFormed lanes = true → decode code lanes (encode code i ++ after) = .ok (i, after)

/-- Every word has one meaning: what decodes is well formed, and but for the ignored bits of a RST the bytes are its encoding
(30_encoding.md section 4; notes/assumptions/7.md). -/
def Obligations.EncodeOfDecodeIsTheWord : Prop :=
  ∀ (code : PhaseCode) (lanes : Nat) (bytes after : List Byte) (i : Instr),
    decode code lanes bytes = .ok (i, after) →
      i.wellFormed lanes = true ∧ (i ≠ .rst → bytes = encode code i ++ after)

/-- A step runs the decoded instruction: the next operation leaves the trace and its word's instruction is executed
(20_memory.md section 2, 30_encoding.md section 1; the trace is the model's, notes/assumptions/3.md). -/
def Obligations.StepRunsTheDecodedInstruction : Prop :=
  ∀ (s : State) (op : Op) (rest : List Op) (i : Instr) (after : List Byte),
    ConfigValid s.cfg → s.trace = op :: rest → op.wellFormed s.cfg.adc.lanes = true →
      decode s.cfg.phaseCode s.cfg.adc.lanes (operationWord s op) = .ok (i, after) → step s = exec i { s with trace := rest }

/-- When a step stops before it runs anything: no block (30_encoding.md section 4), no operation left, an `sdo` of another
length, or a tick in an unused phase code. Bad AdcParams are refused with exactly their violated codes (60_exceptions.md section
1); with good ones the first bad parameter of SEED, DEINT, PHASE_CODE, CW gives the refusal its name. The refusals and their order
are the model's (notes/assumptions/3.md, 4.md, 5.md, 6.md, 9.md). -/
def Obligations.StepStopsByName : Prop :=
  ∀ s : State,
    (¬ AdcValid s.cfg.adc →
        ∃ codes, step s = .refused (.configError codes) ∧ codes ≠ []
          ∧ ∀ e, e ∈ codes ↔ violates (adcTuple s.cfg.adc) e)
      ∧ (AdcValid s.cfg.adc → seedOk s.cfg.seed = false → step s = .refused .seedPattern)
      ∧ (AdcValid s.cfg.adc → seedOk s.cfg.seed = true → deintOk s.cfg = false → step s = .refused .deintMap)
      ∧ (AdcValid s.cfg.adc → seedOk s.cfg.seed = true → deintOk s.cfg = true →
          phaseCodeOk s.cfg.phaseCode = false → step s = .refused .phaseCode)
      ∧ (AdcValid s.cfg.adc → seedOk s.cfg.seed = true → deintOk s.cfg = true →
          phaseCodeOk s.cfg.phaseCode = true → counterWidthOk s.cfg = false → step s = .refused .counterWidth)
      ∧ (ConfigValid s.cfg → s.trace = [] → step s = .refused .noOperation)
      ∧ (∀ op rest, ConfigValid s.cfg → s.trace = op :: rest → op.wellFormed s.cfg.adc.lanes = false →
          step s = .refused .laneCount)
      ∧ ∀ start rest, ConfigValid s.cfg → s.trace = .tick start :: rest → legalPhase s.phase = false →
          step s = .fault .phaseIllegal

/-- The model's reading of the reserved phase codes (30_encoding.md section 4) for a COINC (20_memory.md section 2): its TICK part
faults in an unused code as a tick does, and RST leaves the code. The spec says it of a tick; notes/assumptions/22.md. -/
def Obligations.UnusedPhaseCodeFaultsATick : Prop :=
  ∀ (s : State) (start : Bool) (sdo : List Bool), legalPhase s.phase = false → sdo.length = s.cfg.adc.lanes →
    exec (.coinc false start sdo) s = .fault .phaseIllegal
      ∧ ∃ t, exec .rst s = .next t ∧ t.phase = .named .idle

/-- 40_controller.md R73 with R72: the row that the key selects does what the parts of a tick do: the counter loads at zero
and decrements otherwise, the synthesizer rotates exactly in READ, the publisher latches exactly at an update tick, and no
other register changes. -/
def Obligations.EveryTickRowIsTheComposedTick : Prop :=
  ∀ (s : State) (p : Phase) (start : Bool), phaseCodeOk s.cfg.phaseCode = true → s.phase = .named p →
    ∃ i, decodeKey s.cfg.phaseCode (s.key false start) = .ok i
      ∧ exec i s = .next { s with
          phase := .named (nextPhase p start s.countDone)
          count := if s.count = 0 then countLoad s.cfg p start else s.count - 1
          clkSr := if p = .read then rotl6 s.clkSr 2 else s.clkSr
          data := if p = .rtt ∧ s.count = 0 then published s.cfg s.sr else s.data }

/-- 40_controller.md R91: outside IDLE a tick does the same for both values of `start`. -/
def Obligations.StartIsIgnoredOutsideIdle : Prop :=
  ∀ (s : State) (rest : List Op) (sdo : List Bool), s.phase ≠ .named .idle →
    step { s with trace := .tick true :: rest } = step { s with trace := .tick false :: rest }
      ∧ step { s with trace := .coinc false true sdo :: rest } = step { s with trace := .coinc false false sdo :: rest }

/-! ## Signals, constants and arithmetic -/

/-- 40_controller.md R86 to R89, with `count_done` and `update` (section 1 and section 3): the flags are functions of the phase
and the counter, and `done` is 1 in the reset state. -/
def Obligations.FlagsFollowThePhase : Prop :=
  ∀ s : State,
    (s.countDone = true ↔ s.count = 0)
      ∧ (s.done = true ↔ s.phase = .named .idle) ∧ (s.cnv = true ↔ s.phase = .named .cnvh)
      ∧ (s.reading = true ↔ s.phase = .named .read ∨ s.phase = .named .rtt)
      ∧ (s.sckEn = true ↔ s.phase = .named .read)
      ∧ (s.update = true ↔ s.phase = .named .rtt ∧ s.count = 0)
      ∧ s.resetRegisters.done = true

/-- 40_controller.md R71 and 30_encoding.md R58: the reload values; each is at most T_MAX, which fits the register width CW, and
the division in `LD_READ` is exact. -/
def Obligations.ReloadConstantsFitTheCounter : Prop :=
  ∀ c : Config, ConfigValid c →
    (countLoad c .idle true = c.adc.tCnvh - 1 ∧ countLoad c .idle false = 0
      ∧ (∀ start, countLoad c .cnvh start = c.adc.tConv - 1) ∧ (∀ start, countLoad c .conv start = c.readDuration - 1)
      ∧ (∀ start, countLoad c .read start = c.adc.tRtt - 1) ∧ ∀ start, countLoad c .rtt start = 0)
      ∧ (∀ p start, countLoad c p start ≤ c.tMax)
      ∧ c.adc.lanes * c.readDuration = 3 * c.adc.width * c.adc.channels
      ∧ c.tMax < 2 ^ c.counterBits

/-- 41_clock_synth.md R102: a tick rotates `clk_sr` while `sck_en` is 1 and holds it otherwise; the rotation moves bit
`i - 2 (mod 6)` to bit `i`, and three of them are the identity. -/
def Obligations.RotationKeepsTheRing : Prop :=
  (∀ (s : State) (p : Phase) (start : Bool), phaseCodeOk s.cfg.phaseCode = true → s.phase = .named p →
      ∃ i t, decodeKey s.cfg.phaseCode (s.key false start) = .ok i ∧ exec i s = .next t
        ∧ t.clkSr = if s.sckEn then rotl6 s.clkSr 2 else s.clkSr)
    ∧ ∀ v : BitVec 6,
        rotl6 v 2 = v.extractLsb' 0 4 ++ v.extractLsb' 4 2
          ∧ (∀ i : Fin 6, (rotl6 v 2).getLsbD i.val = v.getLsbD ((i.val + 4) % 6))
          ∧ rotl6 (rotl6 (rotl6 v 2) 2) 2 = v

/-- 41_clock_synth.md R103: the two levels of `sck` in every cycle, whatever `sck_en` is. -/
def Obligations.SckShowsTheLowBits : Prop :=
  ∀ s : State,
    (s.cfg.ddr = .hiFirst → s.sck = (s.clkSr.getLsbD 1, s.clkSr.getLsbD 0))
      ∧ (s.cfg.ddr = .loFirst → s.sck = (s.clkSr.getLsbD 0, s.clkSr.getLsbD 1))

/-- 41_clock_synth.md section on the waveform, from the phase invariant: in READ cycle `j` the two levels are SEED's bits
`(1 - 2j) mod 6` and `(-2j) mod 6`, in this order under HI_FIRST and in the other under LO_FIRST; with the default seed they are
00, 11, 10 in turn (00, 11, 01 under LO_FIRST). Outside READ they are SEED's low bits, 00 for the default. Whatever DDR_ORDER
is, the register keeps three ones (an inference of the same file's section on the rotation). -/
def Obligations.SckWaveformInRead : Prop :=
  ∀ (s : State) (j : Nat), ConfigValid s.cfg → ClockPhase s →
    (s.phase = .named .read → s.count + j + 1 = s.cfg.readDuration →
        (s.cfg.ddr = .hiFirst →
            s.sck = (s.cfg.seed.getLsbD ((1 - 2 * (j : Int)) % 6).toNat, s.cfg.seed.getLsbD ((-2 * (j : Int)) % 6).toNat)
              ∧ (s.cfg.seed = 0b111000#6 → s.sck = (decide (j % 3 ≠ 0), decide (j % 3 = 1))))
          ∧ (s.cfg.ddr = .loFirst →
            s.sck = (s.cfg.seed.getLsbD ((-2 * (j : Int)) % 6).toNat, s.cfg.seed.getLsbD ((1 - 2 * (j : Int)) % 6).toNat)
              ∧ (s.cfg.seed = 0b111000#6 → s.sck = (decide (j % 3 = 1), decide (j % 3 ≠ 0)))))
      ∧ (s.phase ≠ .named .read →
          (s.cfg.ddr = .hiFirst → s.sck = (s.cfg.seed.getLsbD 1, s.cfg.seed.getLsbD 0))
            ∧ (s.cfg.ddr = .loFirst → s.sck = (s.cfg.seed.getLsbD 0, s.cfg.seed.getLsbD 1))
            ∧ (s.cfg.seed = 0b111000#6 → s.sck = (false, false)))
      ∧ seedOk s.clkSr = true

/-- 43_publisher.md R128: the correction is W-bit two's-complement negation: 0 stays 0, any other word but the most negative
changes the sign of its number, and negating twice gives the word back. -/
def Obligations.CorrectionIsNegation : Prop :=
  ∀ w : Word, 1 ≤ w.width →
    (negW w).width = w.width
      ∧ (negW w).toNat = (2 ^ w.width - w.toNat) % 2 ^ w.width
      ∧ (w.toNat = 0 → negW w = w)
      ∧ (w.toNat ≠ 0 → w.toNat ≠ 2 ^ (w.width - 1) → (negW w).toInt = -w.toInt)
      ∧ negW (negW w) = w

/-- 43_publisher.md section 2 (the spec's inference from the formula of the negation): the most negative word is published as
itself. -/
def Obligations.MostNegativeWordIsItsOwnNegation : Prop :=
  ∀ w : Word, 1 ≤ w.width → w.toNat = 2 ^ (w.width - 1) → negW w = w ∧ (negW w).toInt = w.toInt ∧ w.toInt < 0

/-- 43_publisher.md R127: the default DEINT is the formula, is injective, and its image is exactly the windows. -/
def Obligations.DefaultDeintCoversTheWindows : Prop :=
  ∀ c : Config, ConfigValid c → c.deint = .standard →
    (∀ ch b, ch < c.adc.channels → b < c.adc.width →
        deintAt c ch b = some
          (c.adc.lanes - 1 - ch / c.wordsPerLane, (c.wordsPerLane - 1 - ch % c.wordsPerLane) * c.adc.width + b))
      ∧ (∀ ch b p q, ch < c.adc.channels → b < c.adc.width → deintAt c ch b = some (p, q) →
          p < c.adc.lanes ∧ q < c.windowBits ∧ q < c.srDepth)
      ∧ (∀ ch b ch' b', ch < c.adc.channels → b < c.adc.width → ch' < c.adc.channels → b' < c.adc.width →
          deintAt c ch b = deintAt c ch' b' → ch = ch' ∧ b = b')
      ∧ ∀ p q, p < c.adc.lanes → q < c.windowBits →
          ∃ ch b, ch < c.adc.channels ∧ b < c.adc.width ∧ deintAt c ch b = some (p, q)

/-- 43_publisher.md R120 and R131: at an update tick a word whose bits are all defined is published as its negation, and a
word with a `⊥` bit as `⊥`. -/
def Obligations.UpdatePublishesDefinedWords : Prop :=
  ∀ (s t : State) (start : Bool) (ch : Nat), exec (.rttUpdate start) s = .next t → ch < s.cfg.adc.channels →
    (∀ x : BitVec s.cfg.adc.width,
        (∀ b, b < s.cfg.adc.width → rawBit s.cfg s.sr ch b = .val (x.getLsbD b)) →
          t.dataAt ch = .val ⟨s.cfg.adc.width, -x⟩)
      ∧ ((∃ b, b < s.cfg.adc.width ∧ rawBit s.cfg s.sr ch b = .bot) → t.dataAt ch = .bot)

/-- 20_memory.md section 1 (reading an output): a defined word is what every observation of its port shows; `⊥` is shown as
some word of the port's width, which one is left free (the model's free value, notes/assumptions/8.md). -/
def Obligations.PortShowsTheDefinedWord : Prop :=
  ∀ (s : State) (ch : Nat),
    (∀ w, s.dataAt ch = .val w → ∀ obs, State.portWord obs s ch = w)
      ∧ (s.dataAt ch = .bot → ∀ obs, (State.portWord obs s ch).width = s.cfg.adc.width)

/-- 60_exceptions.md R136 and R137: a tuple is built exactly when no condition is violated, and the block built has the parameters
that the tuple names; a refusal carries every violated code and no other. For a negative `lanes` the divisibility is that of
integers (notes/assumptions/20.md). -/
def Obligations.ConstructionVerdict : Prop :=
  ∀ t : AdcTuple,
    ((∀ e, ¬ violates t e) →
        construct t = .ok (State.powerOn { adc := adcOfTuple t }) ∧ AdcValid (adcOfTuple t) ∧ adcTuple (adcOfTuple t) = t)
      ∧ ((∃ e, violates t e) → ∃ codes, construct t = .error codes ∧ ∀ e, e ∈ codes ↔ violates t e)

/-! ## Invariants -/

/-- Every step keeps the widths and counts of the registers (10_state.md section 1) and the configuration (section 4), and
takes one operation from the trace. -/
def Obligations.StepKeepsShapeAndConfiguration : Prop :=
  ∀ s t : State, step s = .next t →
    t.cfg = s.cfg ∧ (∃ op, s.trace = op :: t.trace) ∧ (WellShaped s → WellShaped t)

/-- Every step keeps the phase legal and the counter in `0 .. max(T_MAX, COUNT_RESET)`: no rule writes an unused code
(30_encoding.md section 4) and the counter never wraps (40_controller.md section 4). CW bits hold the counter, unless CW is the
default width and COUNT_RESET is above T_MAX (the model's reading, notes/assumptions/6.md). -/
def Obligations.StepKeepsTheSequencerBounded : Prop :=
  ∀ s t : State, SequencerBounded s → step s = .next t →
    SequencerBounded t
      ∧ (s.cfg.counterWidth ≠ .fitted ∨ s.cfg.countReset ≤ s.cfg.tMax → t.count < 2 ^ s.cfg.counterBits)

/-- 41_clock_synth.md section on the phase invariant: every step of a built block keeps it. -/
def Obligations.StepKeepsTheClockPhase : Prop :=
  ∀ s t : State, ClockPhase s → step s = .next t → ClockPhase t

/-- 40_controller.md section 4 (after the first acquisition): a step that is no reset keeps `IDLE implies count = 0`, and with
`COUNT_RESET = 0` a reset does too. So neither IDLE_DRAIN nor IDLE_START_EARLY fires from such a state. -/
def Obligations.StepKeepsIdleAtZero : Prop :=
  ∀ (s t : State) (op : Op) (rest : List Op), s.trace = op :: rest → (isReset op = false ∨ s.cfg.countReset = 0) →
    IdleAtZero s → step s = .next t → IdleAtZero t ∧ exec .idleDrain t = .refused .keyMismatch
      ∧ exec .idleStartEarly t = .refused .keyMismatch

/-- The power-on state of every block meets the invariants (10_state.md section 5). -/
def Obligations.PowerOnMeetsTheInvariants : Prop :=
  ∀ c : Config,
    WellShaped (State.powerOn c) ∧ SequencerBounded (State.powerOn c) ∧ ClockPhase (State.powerOn c)
      ∧ (c.countReset = 0 → IdleAtZero (State.powerOn c))

/-- The block never stops at run time (60_exceptions.md section 1): from a safe state with an operation left, a step answers
a next state, and it is safe. -/
def Obligations.SafeStatesStepOn : Prop :=
  ∀ s : State, SafeState s → s.trace ≠ [] → ∃ t, step s = .next t ∧ SafeState t

/-- Every run of every block from power-on, over every interleaving of its operations, reaches its end and meets every
invariant there (20_memory.md section 2, 60_exceptions.md section 1). With any other `PHASE_CODE` and `CW` that a block can have,
it ends in the same registers and shows the same outputs (30_encoding.md section 4, 40_controller.md section 4). -/
def Obligations.EveryRunReachesItsEnd : Prop :=
  ∀ (c : Config) (ops : List Op), ConfigValid c → (∀ op ∈ ops, op.wellFormed c.adc.lanes = true) →
    ∃ t, runOps ops (State.powerOn c) = .next t ∧ t.trace = [] ∧ t.cfg = c
      ∧ WellShaped t ∧ SequencerBounded t ∧ ClockPhase t
      ∧ ∀ (code : PhaseCode) (width : CounterWidth) (d : Config),
          d = { c with phaseCode := code, counterWidth := width } → ConfigValid d →
            runOps ops (State.powerOn d) = .next { t with cfg := d } ∧ ({ t with cfg := d } : State).outputs = t.outputs

/-! ## Timing -/

/-- 40_controller.md R98: in a phase other than IDLE with `count = c`, the next `c` ticks stay in it, counting down, and the
tick after them ends it, whatever return edges and `start` inputs come between. -/
def Obligations.PhaseLastsUntilTheCounterEnds : Prop :=
  ∀ (s : State) (p : Phase) (ops : List Op), ConfigValid s.cfg → s.phase = .named p → p ≠ .idle →
    resetFree s.cfg ops = true →
      (tickCount ops ≤ s.count →
          ∃ t, runOps ops s = .next t ∧ t.phase = .named p ∧ t.count = s.count - tickCount ops)
        ∧ (tickCount ops = s.count + 1 → ∃ t, runOps ops s = .next t ∧ t.phase = .named (nextPhase p false true))

/-- The acquisition timing law (40_controller.md section 4): from IDLE with the counter at 0, a tick with `start = 1` and `n`
further ticks, at most N, with any return edges and `start` inputs among them and no reset, lead to the scheduled phase
and count, and each flag is 1 exactly in its cycles. -/
def Obligations.AcquisitionFollowsTheSchedule : Prop :=
  ∀ (s : State) (first : Op) (more : List Op), ConfigValid s.cfg → s.phase = .named .idle → s.count = 0 →
    tickStart first = some true → resetFree s.cfg (first :: more) = true →
      tickCount more ≤ s.cfg.acquisitionCycles →
        ∃ t, runOps (first :: more) s = .next t
          ∧ t.phase = .named (schedule s.cfg (tickCount more)).1 ∧ t.count = (schedule s.cfg (tickCount more)).2
          ∧ (t.cnv = true ↔ tickCount more < s.cfg.adc.tCnvh)
          ∧ (t.sckEn = true ↔ s.cfg.adc.tCnvh + s.cfg.adc.tConv ≤ tickCount more
              ∧ tickCount more < s.cfg.adc.tCnvh + s.cfg.adc.tConv + s.cfg.readDuration)
          ∧ (t.reading = true ↔ s.cfg.adc.tCnvh + s.cfg.adc.tConv ≤ tickCount more
              ∧ tickCount more < s.cfg.acquisitionCycles)
          ∧ (t.update = true ↔ tickCount more + 1 = s.cfg.acquisitionCycles)
          ∧ (t.done = true ↔ tickCount more = s.cfg.acquisitionCycles)

/-- 40_controller.md R97: with `start` held at 1, acquisitions follow one another with period `N + 1`, one IDLE cycle apart. -/
def Obligations.HeldStartHasPeriodNPlusOne : Prop :=
  ∀ (s : State) (ops : List Op), ConfigValid s.cfg → s.phase = .named .idle → s.count = 0 →
    resetFree s.cfg ops = true → (∀ op ∈ ops, tickStart op ≠ some false) →
      ∃ t, runOps ops s = .next t
        ∧ (tickCount ops % (s.cfg.acquisitionCycles + 1) = 0 → t.phase = .named .idle ∧ t.count = 0)
        ∧ (∀ n, tickCount ops % (s.cfg.acquisitionCycles + 1) = n + 1 →
            t.phase = .named (schedule s.cfg n).1 ∧ t.count = (schedule s.cfg n).2 ∧ t.done = false)

/-- The quiescent state (60_exceptions.md R147 and R149): in IDLE with the counter at 0 and no `start`, every controller
register keeps its value for ever, whatever return edges come. -/
def Obligations.IdleWithoutStartIsQuiescent : Prop :=
  ∀ (s : State) (ops : List Op), ConfigValid s.cfg → s.phase = .named .idle → s.count = 0 →
    resetFree s.cfg ops = true → (∀ op ∈ ops, tickStart op ≠ some true) →
      ∃ t, runOps ops s = .next t ∧ t = { s with sr := t.sr, trace := [] }

/-! ## The two domains -/

/-- 43_publisher.md R132: `data` changes only at an update tick or at a reset. -/
def Obligations.DataIsStableBetweenUpdates : Prop :=
  ∀ (s t : State) (op : Op) (rest : List Op), s.trace = op :: rest → step s = .next t → isReset op = false →
    (s.update = false ∨ tickStart op = none) → t.data = s.data

/-- 10_state.md R35: apart from reset, `phase` and `count` are written only by controller ticks, `clk_sr` only in READ, `data`
only at update ticks, and the lane registers only by return edges. -/
def Obligations.EachRegisterHasOneWriter : Prop :=
  ∀ (s t : State) (op : Op) (rest : List Op), s.trace = op :: rest → step s = .next t → isReset op = false →
    (tickStart op = none → t = { s with sr := t.sr, trace := rest })
      ∧ (edgeLevels op = none → t.sr = s.sr)
      ∧ (s.sckEn = false → t.clkSr = s.clkSr)
      ∧ (s.update = false → t.data = s.data)

/-- 20_memory.md R47 and R53: a tick that is no update tick reads nothing of the return domain. -/
def Obligations.TicksReadNoLaneRegister : Prop :=
  ∀ (s t : State) (i : Instr) (sr : List (List (Lifted Bool))), isTickRow i = true → s.update = false →
    exec i s = .next t → exec i { s with sr := sr } = .next { t with sr := sr }

/-- 20_memory.md R47: a tick that is no update tick and a return edge commute. -/
def Obligations.TickAndReturnEdgeCommute : Prop :=
  ∀ (s t : State) (i : Instr) (sdo : List Bool), isTickRow i = true → s.update = false →
    sdo.length = s.cfg.adc.lanes → exec i s = .next t →
      ∃ u v, exec (.ret sdo) s = .next u ∧ exec i u = .next v ∧ exec (.ret sdo) t = .next v

/-- 42_deserializer.md R114 (the window law), over every interleaving without reset: bit `m` of a lane is the level received
`m` return edges before the last one, or the bit that stood `n` places lower before the `n` edges. -/
def Obligations.LanesHoldTheLastEdges : Prop :=
  ∀ (s : State) (ops : List Op), ConfigValid s.cfg → legalPhase s.phase = true → WellShaped s →
    resetFree s.cfg ops = true →
      ∃ t, runOps ops s = .next t
        ∧ ∀ p m, p < s.cfg.adc.lanes → m < s.cfg.srDepth →
            sampleBit t.sr p m =
              if m < (returnEdges ops).length then .val (laneLevel ((returnEdges ops).reverse.getD m []) p)
              else sampleBit s.sr p (m - (returnEdges ops).length)

/-- 42_deserializer.md section on flushing `⊥`: once `k * W` return edges have passed, an ordinary update tick publishes only
defined words, under the default DEINT. -/
def Obligations.EnoughEdgesPublishDefinedWords : Prop :=
  ∀ (s t : State) (ops : List Op) (start : Bool), ConfigValid s.cfg → s.cfg.deint = .standard → WellShaped s →
    resetFree s.cfg ops = true → s.cfg.windowBits ≤ (returnEdges ops).length →
      runOps ops s = .next t → t.update = true →
        ∃ u, exec (.rttUpdate start) t = .next u ∧ ∀ ch, ch < s.cfg.adc.channels → ReadIsDefined u ch

/-- The round-trip law (43_publisher.md section 4, 20_memory.md section 4): under the transfer premise and the default DEINT,
an ordinary update tick publishes the negation of every transmitted word, whatever else the interleaving was. The premise
counts the return edges of COINC operations and asks for no reset (notes/assumptions/12.md). -/
def Obligations.TransferPublishesTheNegatedWords : Prop :=
  ∀ (s t : State) (x : List Word) (ops : List Op) (start : Bool), ConfigValid s.cfg → s.cfg.deint = .standard →
    WellShaped s → areChannelWords s.cfg x = true → resetFree s.cfg ops = true → PXfer s.cfg x ops →
      runOps ops s = .next t → t.update = true →
        ∃ u, runOps (ops ++ [.tick start]) s = .next u ∧ u.done = true
          ∧ ∀ ch, ch < s.cfg.adc.channels → ∃ w, x[ch]? = some w ∧ u.dataAt ch = .val (negW w)

/-- 43_publisher.md R134 (idempotence): two acquisitions whose last `k * W` return edges carry the same levels publish the same
words, under the default DEINT. -/
def Obligations.EqualTransfersPublishEqualWords : Prop :=
  ∀ (s s' t t' : State) (ops ops' : List Op) (edges : List (List Bool)) (start start' : Bool),
    ConfigValid s.cfg → s.cfg.deint = .standard → s'.cfg = s.cfg → WellShaped s → WellShaped s' →
      resetFree s.cfg ops = true → resetFree s.cfg ops' = true → edges.length = s.cfg.windowBits →
        edges <:+ returnEdges ops → edges <:+ returnEdges ops' →
          runOps ops s = .next t → runOps ops' s' = .next t' → t.update = true → t'.update = true →
            ∃ u u', exec (.rttUpdate start) t = .next u ∧ exec (.rttUpdate start') t' = .next u'
              ∧ ∀ ch, ch < s.cfg.adc.channels → ∃ w, u.dataAt ch = .val w ∧ u'.dataAt ch = .val w

/-! ## Stimulus -/

/-- 30_encoding.md section 5 (`send`): line `m` is one return edge, whose level in lane position `p` is bit `W - 1 - (m mod W)` of
word `(L - 1 - p) * k + m div W`; there are `k * W` lines; and the transfer premise holds after them as long as no further
return edge comes. -/
def Obligations.SendMeetsTheTransferPremise : Prop :=
  ∀ (c : Config) (x : List Word) (before after : List Op), returnEdges after = [] →
    (send c x).length = c.windowBits ∧ resetFree c (send c x) = true ∧ PXfer c x (before ++ send c x ++ after)
      ∧ ∀ m, m < c.windowBits →
          ∃ sdo, (send c x)[m]? = some (.ret sdo) ∧ sdo.length = c.adc.lanes
            ∧ ∀ (p : Nat) (w : Word), p < c.adc.lanes →
                x[(c.adc.lanes - 1 - p) * c.wordsPerLane + m / c.adc.width]? = some w →
                  sdo[p]? = some (w.bits.getLsbD (c.adc.width - 1 - m % c.adc.width))

/-- 30_encoding.md section 5 (`acquire`): from IDLE with the counter at 0 its last tick is the update tick, so it ends in IDLE
with `data` published from the lane registers and every other register as before. -/
def Obligations.AcquireEndsWithTheUpdate : Prop :=
  ∀ s : State, ConfigValid s.cfg → ClockPhase s → s.phase = .named .idle → s.count = 0 →
    runOps (acquire s.cfg) s = .next { s with data := published s.cfg s.sr, trace := [] }

/-- 30_encoding.md section 5 (the stimulus lines): the line of an operation reads back as that operation; a coincident reset
has no line with `start`, which it ignores. -/
def Obligations.StimulusLinesReadBack : Prop :=
  ∀ (c : Config) (op : Op), 1 ≤ c.adc.lanes → op.wellFormed c.adc.lanes = true → (∀ sdo, op ≠ .coinc true true sdo) →
    readLine c (writeLine op) = some [op]
end

