-- ==== Sys2Proof/Laws/Decode.lean ====
section
/-! SUPPORT. One lemma for each part of the decoder and the encoder. -/

namespace Sys2Proof

/-- Bit `n` of packed byte `j` is the level of lane `8 * j + n`. -/
theorem packByte_getLsbD (sdo : List Bool) (j : Nat) {n : Nat} (h : n < 8) :
    (packByte sdo j).getLsbD n = sdo.getD (8 * j + n) false := by
  unfold packByte
  rw [BitVec.getLsbD_ofBoolListLE]
  rcases n with _ | _ | _ | _ | _ | _ | _ | _ | n <;> first | rfl | omega

/-- The bytes of L levels. -/
@[simp] theorem packSdo_length (sdo : List Bool) : (packSdo sdo).length = sdoBytes sdo.length := by
  simp [packSdo]

/-- Unpacking packed levels gives them back, whatever follows. -/
theorem unpackSdo_packSdo (sdo : List Bool) (after : List Byte) :
    unpackSdo sdo.length (packSdo sdo ++ after) = sdo := by
  apply List.ext_getElem?
  intro p
  by_cases hp : p < sdo.length
  · have hb : p / 8 < sdoBytes sdo.length := by unfold sdoBytes; omega
    have hbyte : (packSdo sdo ++ after)[p / 8]? = some (packByte sdo (p / 8)) := by
      rw [List.getElem?_append_left (by simpa using hb)]
      simp [packSdo, hb]
    simp only [unpackSdo, List.getElem?_map, List.getElem?_range hp, Option.map_some, List.getD, hbyte,
      Option.getD_some]
    rw [packByte_getLsbD _ _ (Nat.mod_lt _ (by decide)), show 8 * (p / 8) + p % 8 = p by omega]
    simp [hp, List.getD]
  · simp [unpackSdo, hp]

/-- The operand of a RET or COINC word (30_encoding.md R59). -/
theorem decodeSdo_packSdo {lanes : Nat} {sdo : List Bool} (after : List Byte) (h : sdo.length = lanes) :
    decodeSdo lanes (packSdo sdo ++ after) = .ok (sdo, after) := by
  subst h
  simp [decodeSdo, unpackSdo_packSdo]

/-- All that the operand decoder can read: L levels, packed. -/
theorem eq_of_decodeSdo_eq_ok {lanes : Nat} {bytes after : List Byte} {sdo : List Bool}
    (h : decodeSdo lanes bytes = .ok (sdo, after)) : sdo.length = lanes ∧ bytes = packSdo sdo ++ after := by
  unfold decodeSdo at h
  split at h
  · cases h
  · split at h
    · next hp =>
      cases h
      exact ⟨by simp [unpackSdo], by rw [hp]; simp⟩
    · cases h

/-- The fields of a first byte. -/
theorem formatByte_fields (edges : BitVec 2) (low : BitVec 6) :
    (formatByte edges low).extractLsb' 6 2 = edges ∧ (formatByte edges low).extractLsb' 0 6 = low
      ∧ (formatByte edges low).getLsbD 5 = low.getLsbD 5 ∧ (formatByte edges low).getLsbD 1 = low.getLsbD 1 := by
  revert edges low; decide

/-- A first byte is its fields. -/
theorem formatByte_of_fields (b : Byte) : formatByte (b.extractLsb' 6 2) (b.extractLsb' 0 6) = b := by
  revert b; decide

/-! ## Phase codes -/

/-- Two phases have one code only if they are one phase. -/
theorem phaseCode_injective {code : PhaseCode} (h : phaseCodeOk code = true) {p q : Phase}
    (e : phaseCode code p = phaseCode code q) : p = q := by
  simp only [phaseCodeOk, usedCodes, decide_eq_true_eq, List.nodup_cons, List.mem_cons, not_or] at h
  obtain ⟨⟨a, b, c, d, -⟩, ⟨f, g, k, -⟩, ⟨l, m, -⟩, ⟨n, -⟩, -⟩ := h
  cases p <;> cases q <;> simp_all [phaseCode, eq_comm]

/-- The codes of the phases are the used codes. -/
theorem phaseCode_mem_usedCodes (code : PhaseCode) (p : Phase) : phaseCode code p ∈ usedCodes code := by
  cases p <;> simp [phaseCode, usedCodes]

/-- All codes are used or free, each once. -/
theorem usedCodes_append_freeCodes_perm {code : PhaseCode} (h : phaseCodeOk code = true) :
    (usedCodes code ++ freeCodes code).Perm
      [0b000#3, 0b001#3, 0b010#3, 0b011#3, 0b100#3, 0b101#3, 0b110#3, 0b111#3] := by
  have hall : ∀ c : BitVec 3,
      c ∈ [0b000#3, 0b001#3, 0b010#3, 0b011#3, 0b100#3, 0b101#3, 0b110#3, 0b111#3] := by decide
  refine (List.perm_ext_iff_of_nodup ?_ (by decide)).2 fun c => ⟨fun _ => hall c, fun _ => ?_⟩
  · refine List.Nodup.append (of_decide_eq_true h) (List.Nodup.filter _ (by decide)) ?_
    intro c hu hf
    simp [freeCodes, hu] at hf
  · by_cases hu : c ∈ usedCodes code
    · exact List.mem_append_left _ hu
    · exact List.mem_append_right _ (List.mem_filter.2 ⟨hall c, by simp [hu]⟩)

/-- Three codes name no phase (30_encoding.md R56). -/
theorem freeCodes_length {code : PhaseCode} (h : phaseCodeOk code = true) : (freeCodes code).length = 3 := by
  have := (usedCodes_append_freeCodes_perm h).length_eq
  simp [usedCodes] at this
  omega

/-- An unused code is the code of no phase. -/
theorem phaseRegCode_unused_ne {code : PhaseCode} (h : phaseCodeOk code = true) (c : Fin 3) (p : Phase) :
    phaseRegCode code (.unused c) ≠ phaseCode code p := by
  intro e
  have hc : c.val < (freeCodes code).length := by rw [freeCodes_length h]; exact c.isLt
  have hm : phaseRegCode code (.unused c) ∈ freeCodes code := by
    simp [phaseRegCode, List.getD, hc]
  rw [e] at hm
  simp [freeCodes, phaseCode_mem_usedCodes] at hm

/-- A register content is what its code stands for. -/
theorem phaseRegOfCode_phaseRegCode {code : PhaseCode} (h : phaseCodeOk code = true) (r : PhaseReg) :
    phaseRegOfCode code (phaseRegCode code r) = r := by
  have hne : ∀ p q : Phase, p ≠ q → phaseCode code p ≠ phaseCode code q := fun _ _ hpq e => hpq (phaseCode_injective h e)
  cases r with
  | named p =>
    cases p with
    | idle => simp [phaseRegOfCode, phaseRegCode, phaseCode]
    | cnvh =>
      have n1 : code.cnvh ≠ code.idle := hne .cnvh .idle (by decide)
      simp [phaseRegOfCode, phaseRegCode, phaseCode, n1]
    | conv =>
      have n1 : code.conv ≠ code.idle := hne .conv .idle (by decide)
      have n2 : code.conv ≠ code.cnvh := hne .conv .cnvh (by decide)
      simp [phaseRegOfCode, phaseRegCode, phaseCode, n1, n2]
    | read =>
      have n1 : code.read ≠ code.idle := hne .read .idle (by decide)
      have n2 : code.read ≠ code.cnvh := hne .read .cnvh (by decide)
      have n3 : code.read ≠ code.conv := hne .read .conv (by decide)
      simp [phaseRegOfCode, phaseRegCode, phaseCode, n1, n2, n3]
    | rtt =>
      have n1 : code.rtt ≠ code.idle := hne .rtt .idle (by decide)
      have n2 : code.rtt ≠ code.cnvh := hne .rtt .cnvh (by decide)
      have n3 : code.rtt ≠ code.conv := hne .rtt .conv (by decide)
      have n4 : code.rtt ≠ code.read := hne .rtt .read (by decide)
      simp [phaseRegOfCode, phaseRegCode, phaseCode, n1, n2, n3, n4]
  | unused c =>
    have hu := phaseRegCode_unused_ne h c
    have n1 : phaseRegCode code (.unused c) ≠ code.idle := hu .idle
    have n2 : phaseRegCode code (.unused c) ≠ code.cnvh := hu .cnvh
    have n3 : phaseRegCode code (.unused c) ≠ code.conv := hu .conv
    have n4 : phaseRegCode code (.unused c) ≠ code.read := hu .read
    have n5 : phaseRegCode code (.unused c) ≠ code.rtt := hu .rtt
    have hl := freeCodes_length h
    have hn : (freeCodes code).Nodup := List.Nodup.filter _ (by decide)
    simp only [phaseRegOfCode, n1, n2, n3, n4, n5, if_false]
    match hf : freeCodes code, hl with
    | [x, y, z], _ =>
      rw [hf] at hn
      simp only [List.nodup_cons, List.mem_cons, List.not_mem_nil, or_false, not_or] at hn
      obtain ⟨⟨xy, xz⟩, yz, -⟩ := hn
      match c with
      | 0 => simp [phaseRegCode, hf]
      | 1 => simp [phaseRegCode, hf, Ne.symm xy]
      | 2 => simp [phaseRegCode, hf, Ne.symm xz, Ne.symm yz]

/-! ## Keys -/

/-- The fields of a transition key (30_encoding.md R57). -/
theorem transitionKey_fields (rst start countDone : Bool) (phase : BitVec 3) :
    (transitionKey rst phase start countDone).getLsbD 5 = rst
      ∧ (transitionKey rst phase start countDone).extractLsb' 2 3 = phase
      ∧ (transitionKey rst phase start countDone).getLsbD 1 = start
      ∧ (transitionKey rst phase start countDone).getLsbD 0 = countDone := by
  revert rst start countDone phase; decide

/-- A key is its fields. -/
theorem transitionKey_of_fields (key : BitVec 6) :
    transitionKey (key.getLsbD 5) (key.extractLsb' 2 3) (key.getLsbD 1) (key.getLsbD 0) = key := by
  revert key; decide

/-- Two keys are equal exactly when their fields are. -/
theorem transitionKey_eq_iff {rst rst' start start' done done' : Bool} {phase phase' : BitVec 3} :
    transitionKey rst phase start done = transitionKey rst' phase' start' done' ↔
      rst = rst' ∧ phase = phase' ∧ start = start' ∧ done = done' := by
  constructor
  · intro h
    obtain ⟨a, b, c, d⟩ := transitionKey_fields rst start done phase
    obtain ⟨a', b', c', d'⟩ := transitionKey_fields rst' start' done' phase'
    rw [h] at a b c d
    exact ⟨a.symm.trans a', b.symm.trans b', c.symm.trans c', d.symm.trans d'⟩
  · rintro ⟨rfl, rfl, rfl, rfl⟩; rfl

/-- Whether two keys are equal, field by field. -/
theorem transitionKey_beq (rst rst' start start' done done' : Bool) (phase phase' : BitVec 3) :
    (transitionKey rst phase start done == transitionKey rst' phase' start' done') =
      (rst == rst' && (phase == phase' && (start == start' && done == done'))) := by
  rw [Bool.eq_iff_iff]
  simp [transitionKey_eq_iff]

/-- The mask of a row that fixes every bit. -/
@[simp] theorem and_mask_all (key : BitVec 6) : key &&& 0b111111#6 = key := by revert key; decide

/-- The mask of a row that leaves `start` open. -/
theorem transitionKey_and_mask_start (rst start countDone : Bool) (phase : BitVec 3) :
    transitionKey rst phase start countDone &&& 0b111101#6 = transitionKey rst phase false countDone := by
  revert rst start countDone phase; decide

/-- The mask of RST, on a key with `rst = 0`. -/
theorem transitionKey_and_mask_rst (start countDone : Bool) (phase : BitVec 3) :
    transitionKey false phase start countDone &&& 0b100000#6 = 0b000000#6 := by
  revert start countDone phase; decide

/-- The word of a controller operation decodes by its key (30_encoding.md R57). -/
theorem decode_keyWord (code : PhaseCode) (lanes : Nat) (key : BitVec 6) (after : List Byte) :
    decode code lanes (keyWord key ++ after) =
      match decodeKey code key with
      | .ok i => .ok (i, after)
      | .error e => .error e := by
  cases hk : decodeKey code key <;> simp [decode, keyWord, formatByte_fields, hk]

/-- A key whose code is the code of no phase selects no row (30_encoding.md R61). -/
theorem decodeKey_of_no_phase {code : PhaseCode} {phase : BitVec 3} (h : ∀ p, phase ≠ phaseCode code p)
    (start countDone : Bool) :
    decodeKey code (transitionKey false phase start countDone) = .error .phaseIllegal := by
  have h1 := h .idle
  have h2 := h .cnvh
  have h3 := h .conv
  have h4 := h .read
  have h5 := h .rtt
  simp only [phaseCode, ← beq_eq_false_iff_ne] at h1 h2 h3 h4 h5
  simp [decodeKey, keyRows, KeyRow.selects, transitionKey_and_mask_start, transitionKey_and_mask_rst,
    transitionKey_beq, h1, h2, h3, h4, h5, List.find?]

/-- A key with `rst = 1` selects RST (30_encoding.md R57). -/
theorem decodeKey_rst (code : PhaseCode) (phase : BitVec 3) (start countDone : Bool) :
    decodeKey code (transitionKey true phase start countDone) = .ok .rst := by
  have h : transitionKey true phase start countDone &&& 0b100000#6 = 0b100000#6 := by
    revert phase start countDone; decide
  simp [decodeKey, keyRows, KeyRow.selects, transitionKey_and_mask_start, transitionKey_beq, h, List.find?]

end Sys2Proof
end

