-- ==== Sys2Proof/Laws/State.lean ====
section
/-! SUPPORT. What each update of the state does to each field: one lemma for each field and update. -/

namespace Sys2Proof.Machine

@[simp] theorem enter_cfg (s : State) (p : Phase) : (s.enter p).cfg = s.cfg := rfl
@[simp] theorem enter_phase (s : State) (p : Phase) : (s.enter p).phase = .named p := rfl
@[simp] theorem enter_count (s : State) (p : Phase) : (s.enter p).count = s.count := rfl
@[simp] theorem enter_clkSr (s : State) (p : Phase) : (s.enter p).clkSr = s.clkSr := rfl
@[simp] theorem enter_data (s : State) (p : Phase) : (s.enter p).data = s.data := rfl
@[simp] theorem enter_sr (s : State) (p : Phase) : (s.enter p).sr = s.sr := rfl
@[simp] theorem enter_trace (s : State) (p : Phase) : (s.enter p).trace = s.trace := rfl

@[simp] theorem loadCount_cfg (s : State) (n : Nat) : (s.loadCount n).cfg = s.cfg := rfl
@[simp] theorem loadCount_phase (s : State) (n : Nat) : (s.loadCount n).phase = s.phase := rfl
@[simp] theorem loadCount_count (s : State) (n : Nat) : (s.loadCount n).count = n := rfl
@[simp] theorem loadCount_clkSr (s : State) (n : Nat) : (s.loadCount n).clkSr = s.clkSr := rfl
@[simp] theorem loadCount_data (s : State) (n : Nat) : (s.loadCount n).data = s.data := rfl
@[simp] theorem loadCount_sr (s : State) (n : Nat) : (s.loadCount n).sr = s.sr := rfl
@[simp] theorem loadCount_trace (s : State) (n : Nat) : (s.loadCount n).trace = s.trace := rfl

@[simp] theorem decCount_cfg (s : State) : (s.decCount).cfg = s.cfg := rfl
@[simp] theorem decCount_phase (s : State) : (s.decCount).phase = s.phase := rfl
@[simp] theorem decCount_count (s : State) : (s.decCount).count = s.count - 1 := rfl
@[simp] theorem decCount_clkSr (s : State) : (s.decCount).clkSr = s.clkSr := rfl
@[simp] theorem decCount_data (s : State) : (s.decCount).data = s.data := rfl
@[simp] theorem decCount_sr (s : State) : (s.decCount).sr = s.sr := rfl
@[simp] theorem decCount_trace (s : State) : (s.decCount).trace = s.trace := rfl

@[simp] theorem rotateClock_cfg (s : State) : (s.rotateClock).cfg = s.cfg := rfl
@[simp] theorem rotateClock_phase (s : State) : (s.rotateClock).phase = s.phase := rfl
@[simp] theorem rotateClock_count (s : State) : (s.rotateClock).count = s.count := rfl
@[simp] theorem rotateClock_clkSr (s : State) : (s.rotateClock).clkSr = rotl6 s.clkSr 2 := rfl
@[simp] theorem rotateClock_data (s : State) : (s.rotateClock).data = s.data := rfl
@[simp] theorem rotateClock_sr (s : State) : (s.rotateClock).sr = s.sr := rfl
@[simp] theorem rotateClock_trace (s : State) : (s.rotateClock).trace = s.trace := rfl

@[simp] theorem latch_cfg (s : State) (samples : List (List (Lifted Bool))) : (s.latch samples).cfg = s.cfg := rfl
@[simp] theorem latch_phase (s : State) (samples : List (List (Lifted Bool))) : (s.latch samples).phase = s.phase := rfl
@[simp] theorem latch_count (s : State) (samples : List (List (Lifted Bool))) : (s.latch samples).count = s.count := rfl
@[simp] theorem latch_clkSr (s : State) (samples : List (List (Lifted Bool))) : (s.latch samples).clkSr = s.clkSr := rfl
@[simp] theorem latch_data (s : State) (samples : List (List (Lifted Bool))) : (s.latch samples).data = published s.cfg samples := rfl
@[simp] theorem latch_sr (s : State) (samples : List (List (Lifted Bool))) : (s.latch samples).sr = s.sr := rfl
@[simp] theorem latch_trace (s : State) (samples : List (List (Lifted Bool))) : (s.latch samples).trace = s.trace := rfl

@[simp] theorem returnEdge_cfg (s : State) (sdo : List Bool) : (s.returnEdge sdo).cfg = s.cfg := rfl
@[simp] theorem returnEdge_phase (s : State) (sdo : List Bool) : (s.returnEdge sdo).phase = s.phase := rfl
@[simp] theorem returnEdge_count (s : State) (sdo : List Bool) : (s.returnEdge sdo).count = s.count := rfl
@[simp] theorem returnEdge_clkSr (s : State) (sdo : List Bool) : (s.returnEdge sdo).clkSr = s.clkSr := rfl
@[simp] theorem returnEdge_data (s : State) (sdo : List Bool) : (s.returnEdge sdo).data = s.data := rfl
@[simp] theorem returnEdge_sr (s : State) (sdo : List Bool) : (s.returnEdge sdo).sr = shiftLanes s.sr sdo := rfl
@[simp] theorem returnEdge_trace (s : State) (sdo : List Bool) : (s.returnEdge sdo).trace = s.trace := rfl

@[simp] theorem resetRegisters_cfg (s : State) : (s.resetRegisters).cfg = s.cfg := rfl
@[simp] theorem resetRegisters_phase (s : State) : (s.resetRegisters).phase = .named .idle := rfl
@[simp] theorem resetRegisters_count (s : State) : (s.resetRegisters).count = s.cfg.countReset := rfl
@[simp] theorem resetRegisters_clkSr (s : State) : (s.resetRegisters).clkSr = s.cfg.seed := rfl
@[simp] theorem resetRegisters_data (s : State) : (s.resetRegisters).data = List.replicate s.cfg.adc.channels .bot := rfl
@[simp] theorem resetRegisters_sr (s : State) : (s.resetRegisters).sr = List.replicate s.cfg.adc.lanes (List.replicate s.cfg.srDepth .bot) := rfl
@[simp] theorem resetRegisters_trace (s : State) : (s.resetRegisters).trace = s.trace := rfl

@[simp] theorem consume_cfg (s : State) (rest : List Op) : (s.consume rest).cfg = s.cfg := rfl
@[simp] theorem consume_phase (s : State) (rest : List Op) : (s.consume rest).phase = s.phase := rfl
@[simp] theorem consume_count (s : State) (rest : List Op) : (s.consume rest).count = s.count := rfl
@[simp] theorem consume_clkSr (s : State) (rest : List Op) : (s.consume rest).clkSr = s.clkSr := rfl
@[simp] theorem consume_data (s : State) (rest : List Op) : (s.consume rest).data = s.data := rfl
@[simp] theorem consume_sr (s : State) (rest : List Op) : (s.consume rest).sr = s.sr := rfl
@[simp] theorem consume_trace (s : State) (rest : List Op) : (s.consume rest).trace = rest := rfl

@[simp] theorem present_cfg (s : State) (op : Op) : (s.present op).cfg = s.cfg := rfl
@[simp] theorem present_phase (s : State) (op : Op) : (s.present op).phase = s.phase := rfl
@[simp] theorem present_count (s : State) (op : Op) : (s.present op).count = s.count := rfl
@[simp] theorem present_clkSr (s : State) (op : Op) : (s.present op).clkSr = s.clkSr := rfl
@[simp] theorem present_data (s : State) (op : Op) : (s.present op).data = s.data := rfl
@[simp] theorem present_sr (s : State) (op : Op) : (s.present op).sr = s.sr := rfl
@[simp] theorem present_trace (s : State) (op : Op) : (s.present op).trace = op :: s.trace := rfl

@[simp] theorem powerOn_cfg (c : Config) : (State.powerOn c).cfg = c := rfl
@[simp] theorem powerOn_phase (c : Config) : (State.powerOn c).phase = .named .idle := rfl
@[simp] theorem powerOn_count (c : Config) : (State.powerOn c).count = c.countReset := rfl
@[simp] theorem powerOn_clkSr (c : Config) : (State.powerOn c).clkSr = c.seed := rfl
@[simp] theorem powerOn_data (c : Config) : (State.powerOn c).data = List.replicate c.adc.channels .bot := rfl
@[simp] theorem powerOn_sr (c : Config) : (State.powerOn c).sr = List.replicate c.adc.lanes (List.replicate c.srDepth .bot) := rfl
@[simp] theorem powerOn_trace (c : Config) : (State.powerOn c).trace = [] := rfl

/-- RST leaves the power-on state of the same block, with the trace as it was (70_reset_and_hazards.md R152). -/
theorem resetRegisters_eq_powerOn (s : State) :
    s.resetRegisters = { State.powerOn s.cfg with trace := s.trace } := rfl

end Sys2Proof.Machine
end

