-- ==== Sys2Proof/Laws/Ops.lean ====
section
/-! SUPPORT. One lemma for each shared operation that says what it can do. -/

namespace Sys2Proof.Machine

/-! ## Selection and guards -/

/-- All that a TICK row can do: its key selects it and the result is the row's, or it is refused. -/
theorem tickRow_eq_next_iff {p : Phase} {done : Bool} {s t u : State} :
    tickRow p done s t = .next u ↔ (s.phase = .named p ∧ s.countDone = done) ∧ t = u := by
  unfold tickRow
  split <;> simp_all

/-- A TICK row in a state that its key selects. -/
theorem tickRow_of_key {p : Phase} {done : Bool} {s : State} (t : State) (hp : s.phase = .named p)
    (hd : s.countDone = done) : tickRow p done s t = .next t := by
  simp [tickRow, hp, hd]

/-- An operation with `sdo` on its own block. -/
theorem withSdo_of_length {s : State} {sdo : List Bool} (r : StepResult) (h : sdo.length = s.cfg.adc.lanes) :
    withSdo s sdo r = r := by
  simp [withSdo, sdoFits, h]

/-- All that an operation with `sdo` can do. -/
theorem withSdo_eq_next_iff {s t : State} {sdo : List Bool} {r : StepResult} :
    withSdo s sdo r = .next t ↔ sdo.length = s.cfg.adc.lanes ∧ r = .next t := by
  by_cases h : sdo.length = s.cfg.adc.lanes <;> simp [withSdo, sdoFits, h]

/-- All that the composed tick can do (40_controller.md R73). -/
theorem controllerTick_eq_next_iff {start : Bool} {samples : List (List (Lifted Bool))} {s t : State} :
    controllerTick start samples s = .next t ↔
      ∃ p, s.phase = .named p ∧
        t = { s with
          phase := .named (nextPhase p start s.countDone)
          count := nextCount s p start
          clkSr := nextClkSr s
          data := nextData s samples } := by
  unfold controllerTick
  split <;> simp_all [eq_comm]

/-- `count_done` is the counter at 0 (40_controller.md R70). -/
theorem countDone_iff {s : State} : s.countDone = true ↔ s.count = 0 := by simp [State.countDone]

/-- `count_done` is 0 while the counter is not. -/
theorem countDone_false_iff {s : State} : s.countDone = false ↔ s.count ≠ 0 := by simp [State.countDone]

/-- When `update` is 1 (40_controller.md R90). -/
theorem update_iff {s : State} : s.update = true ↔ s.phase = .named .rtt ∧ s.count = 0 := by
  simp [State.update, State.countDone]

/-! ## The clock register -/

/-- Three rotations by two are the identity (41_clock_synth.md R102). -/
theorem rotl6_two_thrice (v : BitVec 6) : rotl6 (rotl6 (rotl6 v 2) 2) 2 = v := by
  revert v; decide

/-- Rotating by `2 * n` and then by 2 is rotating by `2 * (n + 1)`. -/
theorem rotl6_two_add (v : BitVec 6) (n : Nat) : rotl6 (rotl6 v (2 * n)) 2 = rotl6 v (2 * (n + 1)) := by
  have h : ∀ m : Fin 3, ∀ v : BitVec 6, rotl6 (rotl6 v (2 * m.val)) 2 = rotl6 v (2 * (m.val + 1)) := by decide
  have e : ∀ k, rotl6 v (2 * k) = rotl6 v (2 * (k % 3)) := fun k => by
    have : 2 * k % 6 = 2 * (k % 3) % 6 := by omega
    simp [rotl6, this]
  rw [e n, h ⟨n % 3, Nat.mod_lt _ (by decide)⟩ v]
  have : 2 * (n % 3 + 1) % 6 = 2 * (n + 1) % 6 := by omega
  simp [rotl6, this]

/-- Rotating by a multiple of 6 places changes nothing. -/
theorem rotl6_of_mod {n : Nat} (v : BitVec 6) (h : n % 6 = 0) : rotl6 v n = v := by
  have hz : ∀ v : BitVec 6, v ||| v >>> 6 = v := by decide
  simp [rotl6, h, hz]

/-! ## The lane registers -/

/-- A lane keeps its depth at a return edge (42_deserializer.md R111). -/
@[simp] theorem shiftLane_length (lane : List (Lifted Bool)) (b : Bool) : (shiftLane lane b).length = lane.length := by
  simp [shiftLane]

/-- The bits of a lane after a return edge (42_deserializer.md R111). -/
theorem shiftLane_getElem? (lane : List (Lifted Bool)) (b : Bool) (q : Nat) (hq : q < lane.length) :
    (shiftLane lane b)[q]? = if q = 0 then some (.val b) else lane[q - 1]? := by
  cases q <;> simp [shiftLane, hq]

/-- A return edge keeps the number of lanes. -/
@[simp] theorem shiftLanes_length (sr : List (List (Lifted Bool))) (sdo : List Bool) :
    (shiftLanes sr sdo).length = sr.length := by
  simp [shiftLanes]

/-- Each lane shifts in its own level (42_deserializer.md R111, R119). -/
theorem shiftLanes_getElem? (sr : List (List (Lifted Bool))) (sdo : List Bool) (p : Nat) :
    (shiftLanes sr sdo)[p]? = sr[p]?.map fun lane => shiftLane lane (laneLevel sdo p) := by
  simp [shiftLanes, List.getElem?_mapIdx]

/-- A return edge keeps the depth of every lane. -/
theorem shiftLanes_depth {sr : List (List (Lifted Bool))} {sdo : List Bool} {d : Nat}
    (h : ∀ lane ∈ sr, lane.length = d) : ∀ lane ∈ shiftLanes sr sdo, lane.length = d := by
  intro lane hl
  obtain ⟨p, hp⟩ := List.mem_iff_getElem?.1 hl
  rw [shiftLanes_getElem?] at hp
  obtain ⟨l, hl', rfl⟩ := Option.map_eq_some_iff.1 hp
  simpa using h l (List.mem_of_getElem? hl')

/-! ## Publication -/

/-- C words are published (43_publisher.md R130). -/
@[simp] theorem published_length (c : Config) (samples : List (List (Lifted Bool))) :
    (published c samples).length = c.adc.channels := by
  simp [published]

/-- Word `ch` of a publication (43_publisher.md R120). -/
theorem published_getElem? (c : Config) (samples : List (List (Lifted Bool))) {ch : Nat} (h : ch < c.adc.channels) :
    (published c samples)[ch]? = some (publishWord (rawBits c samples ch)) := by
  simp [published, h]

/-- A raw word has W bits. -/
@[simp] theorem rawBits_length (c : Config) (samples : List (List (Lifted Bool))) (ch : Nat) :
    (rawBits c samples ch).length = c.adc.width := by
  simp [rawBits]

/-- Levels are all defined, with themselves as values. -/
theorem definedBits_map_val (bs : List Bool) : definedBits (bs.map .val) = some bs := by
  induction bs with
  | nil => rfl
  | cons b rest ih => simp [definedBits, ih]

/-- Bits are all defined exactly when they are the values of some levels. -/
theorem definedBits_eq_some_iff {bits : List (Lifted Bool)} {bs : List Bool} :
    definedBits bits = some bs ↔ bits = bs.map .val := by
  constructor
  · intro h
    induction bits generalizing bs with
    | nil => cases h; rfl
    | cons b rest ih =>
      cases b with
      | bot => cases h
      | val v =>
        simp only [definedBits] at h
        split at h
        · next r hr => cases h; simp [ih hr]
        · cases h
  · rintro rfl
    exact definedBits_map_val bs

/-- Bits are not all defined exactly when one is `⊥`. -/
theorem definedBits_eq_none_iff {bits : List (Lifted Bool)} : definedBits bits = none ↔ .bot ∈ bits := by
  induction bits with
  | nil => simp [definedBits]
  | cons b rest ih =>
    cases b with
    | bot => simp [definedBits]
    | val v => cases h : definedBits rest <;> simp_all [definedBits]

/-- `neg_W` is the two's-complement negation of the bits (43_publisher.md R128). -/
theorem negW_eq_neg (w : Word) : negW w = ⟨w.width, -w.bits⟩ := by
  unfold negW
  congr 1

/-- Two words of one width are equal when their bits are. -/
theorem word_ext {v w : Word} (hw : v.width = w.width) (hb : ∀ i, v.bits.getLsbD i = w.bits.getLsbD i) : v = w := by
  obtain ⟨n, a⟩ := v
  obtain ⟨m, b⟩ := w
  obtain rfl : n = m := hw
  exact congrArg _ (BitVec.eq_of_getLsbD_eq fun i _ => hb i)

/-- The width of an assembled word. -/
@[simp] theorem wordOfBits_width (bs : List Bool) : (wordOfBits bs).width = bs.length := rfl

/-- Bit `i` of an assembled word is level `i`. -/
theorem wordOfBits_getLsbD (bs : List Bool) (i : Nat) : (wordOfBits bs).bits.getLsbD i = bs.getD i false := by
  simp [wordOfBits, BitVec.getLsbD_ofBoolListLE]

/-- The width is kept by the correction. -/
@[simp] theorem negW_width (w : Word) : (negW w).width = w.width := rfl

/-- What a word whose bits are all defined is published as (43_publisher.md R130). -/
theorem publishWord_of_defined (bs : List Bool) : publishWord (bs.map .val) = .val (negW (wordOfBits bs)) := by
  simp [publishWord, definedBits_eq_some_iff.2 rfl]

/-- A word with a `⊥` bit is published as `⊥` (43_publisher.md R131). -/
theorem publishWord_of_bot {bits : List (Lifted Bool)} (h : .bot ∈ bits) : publishWord bits = .bot := by
  simp [publishWord, definedBits_eq_none_iff.2 h]

/-- A published word that is a value has as many bits as its raw word. -/
theorem publishWord_width {bits : List (Lifted Bool)} {w : Word} (h : publishWord bits = .val w) :
    w.width = bits.length := by
  unfold publishWord at h
  split at h
  · next bs hb => cases h; simp [definedBits_eq_some_iff.1 hb]
  · cases h

/-! ## Construction -/

/-- A configuration has a block exactly when it is valid (60_exceptions.md R136). -/
theorem violations_eq_nil_iff (t : AdcTuple) :
    violations t = [] ↔
      1 ≤ t.channels ∧ 1 ≤ t.lanes ∧ t.channels % t.lanes = 0 ∧ 1 ≤ t.width ∧ 1 ≤ t.tCnvh ∧ 2 ≤ t.tConv
        ∧ 1 ≤ t.tRtt := by
  have key : ∀ (b : Bool) (e : ConfigError), codeIf b e = [] ↔ b = false := by
    intro b e; cases b <;> simp [codeIf]
  simp only [violations, List.append_eq_nil_iff, key, decide_eq_false_iff_not, not_and, not_not, not_lt]
  constructor
  · rintro ⟨⟨⟨⟨⟨⟨h1, h2⟩, h3⟩, h4⟩, h5⟩, h6⟩, h7⟩
    exact ⟨h1, h2, h3 (by omega), h4, h5, h6, h7⟩
  · rintro ⟨h1, h2, h3, h4, h5, h6, h7⟩
    exact ⟨⟨⟨⟨⟨⟨h1, h2⟩, fun _ => h3⟩, h4⟩, h5⟩, h6⟩, h7⟩

/-- A block's own parameters pass construction exactly when they are valid. -/
theorem violations_adcTuple (p : AdcParams) : violations (adcTuple p) = [] ↔ AdcValid p := by
  rw [violations_eq_nil_iff]
  simp only [adcTuple, AdcValid]
  omega

/-- The fetch's check passes exactly for a valid configuration. -/
theorem configRefusal_eq_none_iff (c : Config) : configRefusal c = none ↔ ConfigValid c := by
  unfold configRefusal ConfigValid
  rw [← violations_adcTuple]
  by_cases h : violations (adcTuple c.adc) = [] <;> cases hs : seedOk c.seed <;> cases hd : deintOk c <;>
    cases hp : phaseCodeOk c.phaseCode <;> cases hw : counterWidthOk c <;> simp_all

/-! ## Derived quantities of a valid configuration -/

/-- `C = L * k` (00_scope.md R8). -/
theorem channels_eq {c : Config} (h : AdcValid c.adc) : c.adc.channels = c.adc.lanes * c.wordsPerLane := by
  have := Nat.div_add_mod c.adc.channels c.adc.lanes
  unfold Config.wordsPerLane
  omega

/-- Each lane carries at least one word (00_scope.md R8). -/
theorem wordsPerLane_pos {c : Config} (h : AdcValid c.adc) : 0 < c.wordsPerLane := by
  rcases Nat.eq_zero_or_pos c.wordsPerLane with h0 | h0
  · have := channels_eq h; simp [h0] at this; have := h.1; omega
  · exact h0

/-- `R = 3 * W * k` (00_scope.md R8). -/
theorem readDuration_eq {c : Config} (h : AdcValid c.adc) : c.readDuration = 3 * c.windowBits := by
  have hl : 0 < c.adc.lanes := h.2.1
  unfold Config.readDuration Config.windowBits
  rw [channels_eq h, show 3 * c.adc.width * (c.adc.lanes * c.wordsPerLane)
    = c.adc.lanes * (3 * (c.wordsPerLane * c.adc.width)) by ring, Nat.mul_div_cancel_left _ hl]

/-- The window holds at least one bit. -/
theorem windowBits_pos {c : Config} (h : AdcValid c.adc) : 0 < c.windowBits :=
  Nat.mul_pos (wordsPerLane_pos h) (by have := h.2.2.2.1; omega)

/-- `R >= 3` (00_scope.md R8). -/
theorem three_le_readDuration {c : Config} (h : AdcValid c.adc) : 3 ≤ c.readDuration := by
  have := windowBits_pos h
  rw [readDuration_eq h]; omega

end Sys2Proof.Machine
end

