-- ==== Sys2Proof/Laws/PerInstr.lean ====
section
/-! SUPPORT. One family of lemmas over the instructions: how long the word of each is. A controller word is one byte; a RET or
COINC word is one byte and its packed levels (notes/assumptions/7.md). -/

namespace Sys2Proof.Laws.EncodedLength

/-- The bytes of an instruction's `sdo` operand. -/
def operandBytes : Instr → Nat
  | .idleWait => 0
  | .idleDrain => 0
  | .idleStart => 0
  | .idleStartEarly => 0
  | .cnvhHold _ => 0
  | .cnvhEnd _ => 0
  | .convHold _ => 0
  | .convEnd _ => 0
  | .readShift _ => 0
  | .readEnd _ => 0
  | .rttHold _ => 0
  | .rttUpdate _ => 0
  | .rst => 0
  | .ret sdo => sdoBytes sdo.length
  | .coinc _ _ sdo => sdoBytes sdo.length

/-- Under every `PHASE_CODE` the word has one byte and the operand's, and no more than the longest word of its block. -/
def Statement (i : Instr) : Prop :=
  ∀ code : PhaseCode, (encode code i).length = 1 + operandBytes i
    ∧ ∀ lanes, i.wellFormed lanes = true → (encode code i).length ≤ 1 + sdoBytes lanes

/-- A one-byte word is no longer than any block's longest. -/
theorem of_length_one {i : Instr} (h : ∀ code, (encode code i).length = 1) (hz : operandBytes i = 0) : Statement i :=
  fun code => ⟨by rw [h, hz], fun _ _ => by rw [h]; exact Nat.le_add_right 1 _⟩

/-- A word with `sdo` is the longest of its own block. -/
theorem of_length_sdo {i : Instr} {sdo : List Bool} (h : ∀ code, (encode code i).length = 1 + sdoBytes sdo.length)
    (hb : operandBytes i = sdoBytes sdo.length)
    (hw : ∀ lanes, i.wellFormed lanes = true → sdo.length = lanes) : Statement i :=
  fun code => ⟨by rw [h, hb], fun lanes hl => by rw [h, hw lanes hl]⟩

theorem idleWait : Statement .idleWait := of_length_one (fun _ => rfl) rfl
theorem idleDrain : Statement .idleDrain := of_length_one (fun _ => rfl) rfl
theorem idleStart : Statement .idleStart := of_length_one (fun _ => rfl) rfl
theorem idleStartEarly : Statement .idleStartEarly := of_length_one (fun _ => rfl) rfl
theorem cnvhHold (start : Bool) : Statement (.cnvhHold start) := of_length_one (fun _ => rfl) rfl
theorem cnvhEnd (start : Bool) : Statement (.cnvhEnd start) := of_length_one (fun _ => rfl) rfl
theorem convHold (start : Bool) : Statement (.convHold start) := of_length_one (fun _ => rfl) rfl
theorem convEnd (start : Bool) : Statement (.convEnd start) := of_length_one (fun _ => rfl) rfl
theorem readShift (start : Bool) : Statement (.readShift start) := of_length_one (fun _ => rfl) rfl
theorem readEnd (start : Bool) : Statement (.readEnd start) := of_length_one (fun _ => rfl) rfl
theorem rttHold (start : Bool) : Statement (.rttHold start) := of_length_one (fun _ => rfl) rfl
theorem rttUpdate (start : Bool) : Statement (.rttUpdate start) := of_length_one (fun _ => rfl) rfl
theorem rst : Statement .rst := of_length_one (fun _ => rfl) rfl

theorem ret (sdo : List Bool) : Statement (.ret sdo) :=
  of_length_sdo (by simp [encode, retWord, Nat.add_comm]) rfl (by simp [Instr.wellFormed, sdoFits])

theorem coinc (rst start : Bool) (sdo : List Bool) : Statement (.coinc rst start sdo) :=
  of_length_sdo (by simp [encode, coincWord, Nat.add_comm]) rfl (by simp [Instr.wellFormed, sdoFits])

end Sys2Proof.Laws.EncodedLength
end

