-- ==== Sys2Proof/Laws/Step.lean ====
section
/-! SUPPORT. What the fetch can do, and what a COINC can do. -/

namespace Sys2Proof.Machine

/-- When the fetch finds an instruction. -/
theorem fetch_of_decode {s : State} {op : Op} {rest : List Op} {i : Instr} {after : List Byte}
    (hc : ConfigValid s.cfg) (ht : s.trace = op :: rest) (hw : op.wellFormed s.cfg.adc.lanes = true)
    (hd : decode s.cfg.phaseCode s.cfg.adc.lanes (operationWord s op) = .ok (i, after)) : fetch s = .next (i, s.consume rest) := by
  simp [fetch, (configRefusal_eq_none_iff _).2 hc, ht, hw, hd]

/-- All that the fetch can answer as an instruction: that of the next operation's word, on a block that exists. -/
theorem fetch_eq_next_cases {s t : State} {i : Instr} (h : fetch s = .next (i, t)) :
    ConfigValid s.cfg ∧ ∃ op rest after, s.trace = op :: rest ∧ op.wellFormed s.cfg.adc.lanes = true
      ∧ decode s.cfg.phaseCode s.cfg.adc.lanes (operationWord s op) = .ok (i, after) ∧ t = s.consume rest := by
  unfold fetch at h
  split at h
  · cases h
  · next hc =>
    refine ⟨(configRefusal_eq_none_iff _).1 hc, ?_⟩
    split at h
    · cases h
    · next op rest ht =>
      split at h
      · next hw =>
        split at h
        · next j after hd => cases h; exact ⟨op, rest, after, ht, hw, hd, rfl⟩
        · cases h
        · cases h
      · cases h

/-- All that the TICK and RET parts of a COINC can do together (20_memory.md R48). -/
theorem coincTick_eq_next_iff {start : Bool} {sdo : List Bool} {s t : State} :
    coincTick start sdo s = .next t ↔
      ∃ u, controllerTick start s.sampleCoincident s = .next u ∧ t = { u with sr := shiftLanes s.sr sdo } := by
  unfold coincTick
  cases controllerTick start s.sampleCoincident s <;> simp [State.returnEdge, eq_comm]

end Sys2Proof.Machine
end

