-- ==== Sys2Proof/Laws/Stimulus.lean ====
section
/-! SUPPORT. The parts of the stimulus text (30_encoding.md R66). -/

namespace Sys2Proof.Machine

/-- The last token of a line. -/
theorem tokensFrom_word (w : List Char) (hw : ∀ ch ∈ w, ch ≠ ' ') (cur : List Char) :
    tokensFrom cur w = if (w.reverse ++ cur).isEmpty then [] else [(w.reverse ++ cur).reverse] := by
  induction w generalizing cur with
  | nil => simp [tokensFrom]
  | cons a w ih =>
    rw [tokensFrom, if_neg (hw a (by simp)), ih (fun ch h => hw ch (by simp [h]))]
    simp

/-- A token with a space after it. -/
theorem tokensFrom_word_space (w rest : List Char) (hw : ∀ ch ∈ w, ch ≠ ' ') (cur : List Char)
    (hn : w.reverse ++ cur ≠ []) :
    tokensFrom cur (w ++ ' ' :: rest) = (w.reverse ++ cur).reverse :: tokensFrom [] rest := by
  induction w generalizing cur with
  | nil => simp at hn; simp [tokensFrom, hn]
  | cons a w ih =>
    rw [List.cons_append, tokensFrom, if_neg (hw a (by simp)), ih (fun ch h => hw ch (by simp [h])) _ (by simp)]
    simp

/-- The digits of lane levels are neither space nor comment. -/
theorem levelDigits_plain (sdo : List Bool) : ∀ ch ∈ sdo.map levelDigit, ch ≠ ' ' ∧ ch ≠ ';' := by
  intro ch h
  obtain ⟨b, -, rfl⟩ := List.mem_map.1 h
  cases b <;> decide

/-- The digits of lane levels read back. -/
theorem readLevels_map_levelDigit (sdo : List Bool) : readLevels (sdo.map levelDigit) = some sdo := by
  induction sdo with
  | nil => rfl
  | cons b rest ih => cases b <;> simp [readLevels, ih, levelDigit]

/-- A line without a comment. -/
theorem stripComment_of_plain {line : List Char} (h : ∀ ch ∈ line, ch ≠ ';') : stripComment line = line := by
  unfold stripComment
  rw [List.takeWhile_eq_self_iff]
  intro ch hc
  simp [h ch hc]

/-- No keyword has a space or a `;`. -/
theorem keywords_plain :
    ∀ w ∈ [kwTick, kwStart, kwReset, kwRet, kwCoinc, kwTicks, kwAcquire], ∀ ch ∈ w, ch ≠ ' ' ∧ ch ≠ ';' := by
  simp [kwTick, kwStart, kwReset, kwRet, kwCoinc, kwTicks, kwAcquire]

end Sys2Proof.Machine
end

