-- ==== Sys2Proof/Tests/Slice0.lean ====
section
/-! SUPPORT. Tests of single operations, with expected values from spec/95_test_vectors.md, and a witness for the hypotheses of
each statement of Certificates/Slice0/Obligations.lean. -/

namespace Sys2Proof.Tests

open Sys2Proof.Machine Sys2Proof.Safety

/-! ## Small states -/

/-- V-CFG-11: the smallest block, R = 3, D = 6, N = 7. -/
def smallest : Config :=
  { adc := { channels := 1, lanes := 1, width := 1, tCnvh := 1, tConv := 2, tRtt := 1 } }

/-- The block of programs P1, P2 and P8: R = 6, D = 12. -/
def twoBits : Config :=
  { adc := { channels := 1, lanes := 1, width := 2, tCnvh := 1, tConv := 2, tRtt := 1 } }

/-- The block of program P6: k = 1, R = 12, D = 24. -/
def twoLanes : Config :=
  { adc := { channels := 2, lanes := 2, width := 4, tCnvh := 1, tConv := 2, tRtt := 1 } }

/-- The block of V-PUB-3: k = 2, R = 24, D = 48. -/
def twoWords : Config :=
  { adc := { channels := 2, lanes := 1, width := 4, tCnvh := 1, tConv := 2, tRtt := 1 } }

/-- An injective `PHASE_CODE` other than the default. -/
def otherCode : PhaseCode := { idle := 0b111#3, cnvh := 0b110#3, conv := 0b101#3, read := 0b100#3, rtt := 0b011#3 }

/-- The smallest block with that code and a counter register of nine bits. -/
def recoded : Config := { smallest with phaseCode := otherCode, counterWidth := .bits 9 }

/-- A block as after power-on, in phase `p` with `count = n`. -/
def inPhase (c : Config) (p : Phase) (n : Nat) : State :=
  { State.powerOn c with phase := .named p, count := n }

/-- The same with `ops` to come. -/
def inPhaseWith (c : Config) (p : Phase) (n : Nat) (ops : List Op) : State :=
  { inPhase c p n with trace := ops }

/-- A lane of depth `d` whose low bits are `low`, written with the most significant bit first, and `⊥` above. -/
def laneOf (d : Nat) (low : List Bool) : List (Lifted Bool) :=
  low.reverse.map .val ++ List.replicate (d - low.length) .bot

/-- Phase and counter of a next state. -/
def sequencerOf (r : StepResult) : Option (PhaseReg × Nat) := (nextState? r).map fun s => (s.phase, s.count)

/-- The clock register of a next state. -/
def clockOf (r : StepResult) : Option (BitVec 6) := (nextState? r).map State.clkSr

/-- The published words of a next state. -/
def dataOf (r : StepResult) : Option (List (Lifted Word)) := (nextState? r).map State.data

/-- The lane registers of a next state. -/
def lanesOf (r : StepResult) : Option (List (List (Lifted Bool))) := (nextState? r).map State.sr

/-! ## Well-formedness -/

theorem test_ret_of_three_levels_is_no_ret_of_two_lanes : (Instr.ret [true, false, true]).wellFormed 2 = false := by
  decide
theorem test_ret_of_two_levels_is_a_ret_of_two_lanes : (Instr.ret [true, false]).wellFormed 2 = true := by decide
theorem test_coinc_of_one_level_is_no_coinc_of_two_lanes : (Instr.coinc false true [true]).wellFormed 2 = false := by
  decide
theorem test_op_ret_without_levels_is_no_operation : (Op.ret []).wellFormed 1 = false := by decide
theorem test_op_coinc_of_two_levels_is_no_operation_of_one_lane : (Op.coinc true false [true, true]).wellFormed 1 = false := by
  decide

/-! ## Decoding

The low six bits of each first byte are the key of 30_encoding.md R60, written `rst phase start count_done`; bits 7:6 are the
model's own format bits (notes/assumptions/7.md). -/

theorem test_decode_idleWait : decodeTableWord 8 0b00_0_000_0_1 = some .idleWait := by decide
theorem test_decode_idleDrain : decodeTableWord 8 0b00_0_000_0_0 = some .idleDrain := by decide
theorem test_decode_idleStart : decodeTableWord 8 0b00_0_000_1_1 = some .idleStart := by decide
theorem test_decode_idleStartEarly : decodeTableWord 8 0b00_0_000_1_0 = some .idleStartEarly := by decide
theorem test_decode_cnvhHold : decodeTableWord 8 0b00_0_001_0_0 = some (.cnvhHold false) := by decide
theorem test_decode_cnvhHold_start : decodeTableWord 8 0b00_0_001_1_0 = some (.cnvhHold true) := by decide
theorem test_decode_cnvhEnd : decodeTableWord 8 0b00_0_001_0_1 = some (.cnvhEnd false) := by decide
theorem test_decode_cnvhEnd_start : decodeTableWord 8 0b00_0_001_1_1 = some (.cnvhEnd true) := by decide
theorem test_decode_convHold : decodeTableWord 8 0b00_0_010_0_0 = some (.convHold false) := by decide
theorem test_decode_convHold_start : decodeTableWord 8 0b00_0_010_1_0 = some (.convHold true) := by decide
theorem test_decode_convEnd : decodeTableWord 8 0b00_0_010_0_1 = some (.convEnd false) := by decide
theorem test_decode_convEnd_start : decodeTableWord 8 0b00_0_010_1_1 = some (.convEnd true) := by decide
theorem test_decode_readShift : decodeTableWord 8 0b00_0_011_0_0 = some (.readShift false) := by decide
theorem test_decode_readShift_start : decodeTableWord 8 0b00_0_011_1_0 = some (.readShift true) := by decide
theorem test_decode_readEnd : decodeTableWord 8 0b00_0_011_0_1 = some (.readEnd false) := by decide
theorem test_decode_readEnd_start : decodeTableWord 8 0b00_0_011_1_1 = some (.readEnd true) := by decide
theorem test_decode_rttHold : decodeTableWord 8 0b00_0_100_0_0 = some (.rttHold false) := by decide
theorem test_decode_rttHold_start : decodeTableWord 8 0b00_0_100_1_0 = some (.rttHold true) := by decide
theorem test_decode_rttUpdate : decodeTableWord 8 0b00_0_100_0_1 = some (.rttUpdate false) := by decide
theorem test_decode_rttUpdate_start : decodeTableWord 8 0b00_0_100_1_1 = some (.rttUpdate true) := by decide
theorem test_decode_rst : decodeTableWord 8 0b00_1_000_0_0 = some .rst := by decide
theorem test_decode_rst_ignores_the_other_key_bits : decodeTableWord 8 0b00_1_111_1_1 = some .rst := by decide

/-- `ret 10`: lane 0 is bit 0 of the operand byte. -/
theorem test_decode_ret : decode {} 2 [0b01_000000#8, 0b000000_0_1#8] = .ok (.ret [true, false], []) := by decide
/-- `coinc start 01`, with a byte after it. -/
theorem test_decode_coinc : decode {} 2 [0b11_0_000_1_0#8, 0b000000_1_0#8, 0#8] = .ok (.coinc false true [false, true], [0#8]) := by
  decide
/-- Nine lanes take two operand bytes. -/
theorem test_decode_ret_of_nine_lanes :
    decode {} 9 [0b01_000000#8, 0#8, 1#8] =
      .ok (.ret [false, false, false, false, false, false, false, false, true], []) := by decide

theorem test_decode_refuses_phase_code_101 : decode {} 2 [0b00_0_101_0_0#8] = .error .phaseIllegal := by decide
theorem test_decode_refuses_phase_code_111 : decode {} 2 [0b00_0_111_1_1#8] = .error .phaseIllegal := by decide
theorem test_decode_refuses_the_reserved_format : decode {} 2 [0b10_0_000_0_1#8] = .error .reservedFormat := by decide
theorem test_decode_refuses_reserved_bits : decode {} 2 [0b01_000001#8, 0#8] = .error .reservedBits := by decide
theorem test_decode_refuses_a_short_ret : decode {} 2 [0b01_000000#8] = .error .truncated := by decide
theorem test_decode_refuses_padding : decode {} 2 [0b01_000000#8, 0b00000100#8] = .error .padding := by decide
theorem test_decode_refuses_no_byte : decode {} 2 [] = .error .empty := by decide

theorem test_encode_ret : encode {} (.ret [true, false]) = [0b01_000000#8, 0b000000_0_1#8] := by decide
theorem test_encode_coinc : encode {} (.coinc true false [false, true]) = [0b11_1_000_0_0#8, 0b000000_1_0#8] := by decide

/-- 30_encoding.md R60: under the default `PHASE_CODE` the rows are those of spec/opcode_table.json. -/
theorem test_keyRows_are_the_table :
    (keyRows {}).map (fun row => (row.pattern, row.mask)) =
      [(0b000001#6, 0b111111#6), (0b000000#6, 0b111111#6), (0b000011#6, 0b111111#6), (0b000010#6, 0b111111#6),
        (0b000100#6, 0b111101#6), (0b000101#6, 0b111101#6), (0b001000#6, 0b111101#6), (0b001001#6, 0b111101#6),
        (0b001100#6, 0b111101#6), (0b001101#6, 0b111101#6), (0b010000#6, 0b111101#6), (0b010001#6, 0b111101#6),
        (0b100000#6, 0b100000#6)] := by decide
/-- 30_encoding.md R56: the codes of no phase. -/
theorem test_free_codes_of_the_default : freeCodes {} = [0b101#3, 0b110#3, 0b111#3] := by decide
theorem test_free_codes_of_another_code : freeCodes otherCode = [0b000#3, 0b001#3, 0b010#3] := by decide
/-- RTT has the code 011 here, so this is RTT_UPDATE with `start = 1`. -/
theorem test_decode_under_another_code : decode otherCode 1 [0b00_0_011_1_1#8] = .ok (.rttUpdate true, []) := by decide
theorem test_decode_refuses_a_free_code_of_another_code : decode otherCode 1 [0b00_0_000_0_1#8] = .error .phaseIllegal := by
  decide

/-! ## The TICK rows (95_test_vectors.md section 2.1) -/

/-- V-ROW-1. -/
theorem test_idleWait : sequencerOf (exec .idleWait (inPhase .s8 .idle 0)) = some (.named .idle, 0) := by decide
/-- V-ROW-2. -/
theorem test_idleDrain : sequencerOf (exec .idleDrain (inPhase .s8 .idle 3)) = some (.named .idle, 2) := by decide
/-- V-ROW-3. -/
theorem test_idleStart : sequencerOf (exec .idleStart (inPhase .s8 .idle 0)) = some (.named .cnvh, 4) := by decide
/-- V-ROW-4. -/
theorem test_idleStart_of_one_cycle : sequencerOf (exec .idleStart (inPhase smallest .idle 0)) = some (.named .cnvh, 0) := by
  decide
/-- V-ROW-5. -/
theorem test_idleStartEarly : sequencerOf (exec .idleStartEarly (inPhase .s8 .idle 3)) = some (.named .cnvh, 2) := by
  decide
/-- V-ROW-6. -/
theorem test_cnvhHold : sequencerOf (exec (.cnvhHold false) (inPhase .s8 .cnvh 4)) = some (.named .cnvh, 3) := by decide
/-- V-ROW-7, through a step. -/
theorem test_cnvhHold_ignores_start :
    sequencerOf (step (inPhaseWith .s8 .cnvh 4 [.tick true])) = some (.named .cnvh, 3) := by decide
/-- V-ROW-8. -/
theorem test_cnvhEnd : sequencerOf (exec (.cnvhEnd false) (inPhase .s8 .cnvh 0)) = some (.named .conv, 56) := by decide
/-- V-ROW-9. -/
theorem test_convHold : sequencerOf (exec (.convHold true) (inPhase .s8 .conv 56)) = some (.named .conv, 55) := by decide
/-- V-ROW-10. -/
theorem test_convEnd : sequencerOf (exec (.convEnd false) (inPhase .s8 .conv 0)) = some (.named .read, 191) := by decide
/-- V-ROW-11. -/
theorem test_readShift :
    sequencerOf (exec (.readShift false) (inPhase .s8 .read 191)) = some (.named .read, 190)
      ∧ clockOf (exec (.readShift false) (inPhase .s8 .read 191)) = some 0b100011#6 := by decide
/-- V-ROW-12. -/
theorem test_readShift_second :
    clockOf (exec (.readShift false) { inPhase .s8 .read 190 with clkSr := 0b100011#6 }) = some 0b001110#6
      ∧ ({ inPhase .s8 .read 190 with clkSr := 0b100011#6 } : State).sck = (true, true) := by decide
/-- V-ROW-13. -/
theorem test_readEnd :
    sequencerOf (exec (.readEnd true) { inPhase .s8 .read 0 with clkSr := 0b001110#6 }) = some (.named .rtt, 4)
      ∧ clockOf (exec (.readEnd true) { inPhase .s8 .read 0 with clkSr := 0b001110#6 }) = some 0b111000#6
      ∧ ({ inPhase .s8 .read 0 with clkSr := 0b001110#6 } : State).sck = (true, false) := by decide
/-- V-ROW-16 under another `PHASE_CODE`, through a step. -/
theorem test_rttUpdate_under_another_code :
    sequencerOf (step (inPhaseWith recoded .rtt 0 [.tick false])) = some (.named .idle, 0) := by decide
/-- V-ROW-14. -/
theorem test_rttHold : sequencerOf (exec (.rttHold false) (inPhase .s8 .rtt 4)) = some (.named .rtt, 3) := by decide
/-- Program P6: the lanes hold 1100 and 0101, and 0xB and 0x4 are published: lane 1 feeds channel 0. -/
theorem test_rttUpdate_reverses_the_lanes :
    dataOf (exec (.rttUpdate true)
        { inPhase twoLanes .rtt 0 with
          sr := [laneOf 24 [true, true, false, false], laneOf 24 [false, true, false, true]] }) =
      some [.val ⟨4, 0xB#4⟩, .val ⟨4, 0x4#4⟩] := by decide
/-- V-PUB-3, with the six bits 10 0011: the word with a `⊥` bit is published as `⊥`. -/
theorem test_rttUpdate_publishes_bot_for_a_partial_word :
    dataOf (exec (.rttUpdate false)
        { inPhase twoWords .rtt 0 with sr := [laneOf 48 [true, false, false, false, true, true]] }) =
      some [.bot, .val ⟨4, 0b1101#4⟩] := by decide

/-! ## RST, RET and COINC -/

/-- V-RST-1, on the smaller block of P1. -/
theorem test_rst_in_read :
    nextState? (exec .rst
        { inPhase twoBits .read 3 with clkSr := 0b100011#6, data := [.val ⟨2, 0b11#2⟩], sr := [laneOf 12 [true]] }) =
      some (inPhase twoBits .idle 0) := by decide
/-- V-RST-2: no latch at an update tick. -/
theorem test_rst_at_an_update_tick :
    dataOf (step { inPhaseWith smallest .rtt 0 [.rst] with sr := [laneOf 6 [true]] }) = some [.bot] := by decide
/-- V-DES-1. -/
theorem test_ret :
    lanesOf (exec (.ret [true])
        { inPhase twoBits .idle 0 with
          sr := [laneOf 12 [false, false, false, false, false, false, false, false, false, false, false, true]] }) =
      some [laneOf 12 [false, false, false, false, false, false, false, false, false, false, true, true]] := by decide
/-- V-DES-2: the top bit is lost. -/
theorem test_ret_loses_the_top_bit :
    lanesOf (exec (.ret [false])
        { inPhase smallest .idle 0 with sr := [laneOf 6 [true, false, false, false, false, false]] }) =
      some [laneOf 6 [false, false, false, false, false, false]] := by decide
/-- Program P8, the operation C10. -/
theorem test_coinc_at_an_update_tick :
    nextState? (exec (.coinc false false [true]) { inPhase twoBits .rtt 0 with sr := [laneOf 12 [false, true]] }) =
      some { inPhase twoBits .idle 0 with sr := [laneOf 12 [false, true, true]] } := by decide
/-- V-RST-5. -/
theorem test_coinc_reset_leaves_no_bit :
    lanesOf (exec (.coinc true false [true]) (inPhase smallest .idle 0)) = some [laneOf 6 []] := by decide

/-! ## Arithmetic, construction and stimulus -/

/-- V-PUB-2: the most negative word wraps to itself, and 0x8001 is no sign-magnitude -1. -/
theorem test_negW :
    negW ⟨16, 0x8000#16⟩ = ⟨16, 0x8000#16⟩ ∧ negW ⟨16, 0x8001#16⟩ = ⟨16, 0x7FFF#16⟩
      ∧ negW ⟨16, 0x0000#16⟩ = ⟨16, 0x0000#16⟩ ∧ negW ⟨1, 1#1⟩ = ⟨1, 1#1⟩ := by decide
/-- V-CFG-3. -/
theorem test_construct_refuses_lanes_that_do_not_divide : violations ⟨1, 3, 1, 1, 2, 1⟩ = [.eDivide] := by decide
/-- V-CFG-8. -/
theorem test_construct_refuses_no_lanes : violations ⟨8, 0, 16, 5, 57, 5⟩ = [.eLanes] := by decide
/-- V-CFG-10. -/
theorem test_construct_reports_every_violation :
    violations ⟨3, 1, 0, 0, 0, 0⟩ = [.eWidth, .eTCnvh, .eTConv, .eTRtt] := by decide
/-- V-CFG-1. -/
theorem test_construct_accepts_s8 :
    violations ⟨8, 2, 16, 5, 57, 5⟩ = [] ∧ Config.s8.wordsPerLane = 4 ∧ Config.s8.readDuration = 192
      ∧ Config.s8.srDepth = 384 ∧ Config.s8.acquisitionCycles = 259 := by decide
/-- Two phases with one code, and a counter of two bits that must hold R - 1 = 5. -/
theorem test_no_block_with_a_bad_code_or_width :
    configRefusal { smallest with phaseCode := { cnvh := 0b000#3 } } = some .phaseCode
      ∧ configRefusal { twoBits with counterWidth := .bits 2 } = some .counterWidth
      ∧ configRefusal { twoBits with counterWidth := .bits 3 } = none := by decide
/-- V-PUB-1: the first and the last row of S8's default DEINT. -/
theorem test_deint_of_s8 :
    deintAt .s8 0 15 = some (1, 63) ∧ deintAt .s8 3 0 = some (1, 0) ∧ deintAt .s8 4 15 = some (0, 63)
      ∧ deintAt .s8 7 0 = some (0, 0) := by decide
/-- 30_encoding.md R66: `ret 10` means `sdo[0] = 1`, `sdo[1] = 0`. -/
theorem test_line_ret : readLine twoLanes ['r', 'e', 't', ' ', '1', '0', ' ', ';', 'x'] = some [.ret [true, false]] := by
  decide
/-- 30_encoding.md R67. -/
theorem test_line_ticks :
    readLine smallest ['t', 'i', 'c', 'k', 's', ' ', '1', '2'] = some (List.replicate 12 (.tick false)) := by decide
/-- Program P6: the levels of the four return edges. -/
theorem test_send_of_program_p6 :
    send twoLanes [⟨4, 0x5#4⟩, ⟨4, 0xC#4⟩] =
      [.ret [true, false], .ret [true, true], .ret [false, false], .ret [false, true]] := by decide

/-! ## The machine after reset -/

/-- V-ROW-3 as the first instruction after reset. -/
theorem test_reset_runs_idleStart :
    sequencerOf (step (State.reset.withFetchWord 8 0b00_0_000_1_1)) = some (.named .cnvh, 4) := by decide
/-- V-ROW-8 as the first instruction after reset: the placed key brings its phase and its counter at 0. -/
theorem test_reset_runs_cnvhEnd :
    sequencerOf (step (State.reset.withFetchWord 8 0b00_0_001_0_1)) = some (.named .conv, 56) := by decide
/-- A RET as the first instruction after reset: the levels of both lanes are read from the operand byte, and the step runs. -/
theorem test_reset_runs_ret :
    (State.reset.withFetchWord 16 0b00000010_01000000).trace = [.ret [false, true]]
      ∧ sequencerOf (step (State.reset.withFetchWord 16 0b00000010_01000000)) = some (.named .idle, 0) := by decide

/-! ## Witnesses: concrete states and operands that meet the hypotheses of each statement -/

/-- The premises on `PHASE_CODE` of the statements about the TICK rows: the default, and another code. -/
theorem witness_phase_code :
    (phaseCodeOk smallest.phaseCode = true ∧ smallest.phaseCode = {}) ∧ (phaseCodeOk Config.s8.phaseCode = true
      ∧ Config.s8.phaseCode = {}) ∧ phaseCodeOk otherCode = true := by decide

theorem witness_IdleWaitKeepsEveryRegister :
    (inPhase .s8 .idle 0).phase = .named .idle ∧ (inPhase .s8 .idle 0).count = 0 := by decide
theorem witness_IdleDrainDecrementsTheCounter :
    (inPhase .s8 .idle 1).phase = .named .idle ∧ (inPhase .s8 .idle 1).count ≠ 0 := by decide
/-- With `t_cnvh = 1`, the corner case too. -/
theorem witness_IdleStartEntersCnvh :
    (inPhase smallest .idle 0).phase = .named .idle ∧ (inPhase smallest .idle 0).count = 0
      ∧ (inPhase smallest .idle 0).cfg.adc.tCnvh = 1 := by decide
theorem witness_IdleStartEarlyLosesTheLoad :
    (inPhase smallest .idle 1).phase = .named .idle ∧ (inPhase smallest .idle 1).count ≠ 0 := by decide
theorem witness_CnvhHoldDecrementsTheCounter :
    (inPhase .s8 .cnvh 1).phase = .named .cnvh ∧ (inPhase .s8 .cnvh 1).count ≠ 0 := by decide
theorem witness_CnvhEndEntersConv :
    (inPhase smallest .cnvh 0).phase = .named .cnvh ∧ (inPhase smallest .cnvh 0).count = 0
      ∧ ConfigValid (inPhase smallest .cnvh 0).cfg := by decide
theorem witness_ConvHoldDecrementsTheCounter :
    (inPhase .s8 .conv 1).phase = .named .conv ∧ (inPhase .s8 .conv 1).count ≠ 0 := by decide
theorem witness_ConvEndEntersRead :
    (inPhase smallest .conv 0).phase = .named .conv ∧ (inPhase smallest .conv 0).count = 0
      ∧ ConfigValid (inPhase smallest .conv 0).cfg := by decide
theorem witness_ReadShiftRotatesTheClock :
    (inPhase smallest .read 2).phase = .named .read ∧ (inPhase smallest .read 2).count ≠ 0 := by decide

/-- The last READ cycle of the smallest block: two rotations are done. -/
def lastRead : State := { inPhase smallest .read 0 with clkSr := 0b001110#6 }

theorem witness_ReadEndEntersRtt :
    lastRead.phase = .named .read ∧ lastRead.count = 0 ∧ ConfigValid lastRead.cfg ∧ ClockPhase lastRead := by decide
theorem witness_RttHoldDecrementsTheCounter :
    (inPhase .s8 .rtt 1).phase = .named .rtt ∧ (inPhase .s8 .rtt 1).count ≠ 0 := by decide
theorem witness_RttUpdatePublishes :
    (inPhase smallest .rtt 0).phase = .named .rtt ∧ (inPhase smallest .rtt 0).count = 0 := by decide
theorem witness_RstWritesEveryRegister : [true].length = (inPhase smallest .rtt 0).cfg.adc.lanes := by decide
theorem witness_PowerOnIsTheStateAfterRst : (inPhase smallest .rtt 0).cfg.seed = 0b111000#6 := by decide
/-- Lane 0 of the smallest block, and its last bit that moves up. -/
theorem witness_RetShiftsEveryLane :
    [true].length = (inPhase smallest .idle 0).cfg.adc.lanes
      ∧ (inPhase smallest .idle 0).sr[0]? = some (laneOf 6 []) ∧ [true][0]? = some true
      ∧ 0 < (laneOf 6 []).length ∧ 4 + 1 < (laneOf 6 []).length := by decide
theorem witness_OtherLaneCountsAreNoOperand : ([] : List Bool).length ≠ (inPhase smallest .idle 0).cfg.adc.lanes := by
  decide
/-- An ordinary tick and an update tick. -/
theorem witness_CoincIsTickAndReturnOfOneState :
    ConfigValid smallest ∧ [true].length = smallest.adc.lanes
      ∧ legalPhase (inPhase smallest .rtt 1).phase = true ∧ (inPhase smallest .rtt 1).update = false
      ∧ legalPhase (inPhase smallest .rtt 0).phase = true ∧ (inPhase smallest .rtt 0).update = true := by decide
/-- The code of RTT and a code of no phase, under the default code and another. -/
theorem witness_EveryKeySelectsOneRow :
    (phaseCodeOk {} = true ∧ (0b111111#6).getLsbD 5 = true
        ∧ ((0b010011#6).getLsbD 5 = false ∧ (0b010011#6).extractLsb' 2 3 = phaseCode {} .rtt)
        ∧ ((0b010100#6).getLsbD 5 = false ∧ ∀ c ∈ usedCodes {}, (0b010100#6).extractLsb' 2 3 ≠ c))
      ∧ (phaseCodeOk otherCode = true
        ∧ ((0b001111#6).getLsbD 5 = false ∧ (0b001111#6).extractLsb' 2 3 = phaseCode otherCode .rtt)
        ∧ ((0b000000#6).getLsbD 5 = false ∧ ∀ c ∈ usedCodes otherCode, (0b000000#6).extractLsb' 2 3 ≠ c)) := by decide
/-- The first reserved key of the default code. -/
theorem witness_KeysSelectTheirRows : (0b010100#6).getLsbD 5 = false ∧ 4#3 < (0b010100#6).extractLsb' 2 3 := by decide
theorem witness_DecodeOfEncodeIsTheInstruction :
    phaseCodeOk otherCode = true ∧ (Instr.coinc true true [true, false]).wellFormed 2 = true
      ∧ (Instr.rttUpdate true).wellFormed 2 = true := by decide
theorem witness_EncodeOfDecodeIsTheWord :
    decode {} 1 [0b01_000000#8, 1#8, 0#8] = .ok (.ret [true], [0#8]) ∧ Instr.ret [true] ≠ .rst := by decide
theorem witness_StepRunsTheDecodedInstruction :
    ConfigValid smallest
      ∧ (inPhaseWith smallest .idle 0 [.tick true, .rst]).trace = .tick true :: [.rst]
      ∧ (Op.tick true).wellFormed smallest.adc.lanes = true
      ∧ decode smallest.phaseCode smallest.adc.lanes (operationWord (inPhaseWith smallest .idle 0 [.tick true, .rst]) (.tick true)) =
          .ok (.idleStart, []) := by decide

/-- A tick in the first unused phase code. -/
def unusedPhase : State := { State.powerOn smallest with phase := .unused 0, trace := [.tick false] }

/-- V-CFG-5: a tuple that builds no block. -/
def noBlock : State := State.powerOn { adc := { AdcParams.s8 with tConv := 1 } }

/-- Each parameter as the first bad one, and the last where an earlier one is bad too. -/
theorem witness_StepStopsByName_parameters :
    AdcValid smallest.adc ∧ seedOk smallest.seed = true
      ∧ seedOk { smallest with seed := 0b000001#6, deint := .table [] }.seed = false
      ∧ deintOk { smallest with deint := .table [], counterWidth := .bits 1 } = false
      ∧ (deintOk { smallest with phaseCode := { rtt := 0b000#3 } } = true
          ∧ phaseCodeOk { smallest with phaseCode := { rtt := 0b000#3 } }.phaseCode = false)
      ∧ (deintOk { smallest with counterWidth := .bits 1 } = true
          ∧ phaseCodeOk { smallest with counterWidth := .bits 1 }.phaseCode = true
          ∧ counterWidthOk { smallest with counterWidth := .bits 1 } = false) := by decide
/-- Each of the other ways to stop. -/
theorem witness_StepStopsByName :
    ¬ AdcValid noBlock.cfg.adc
      ∧ violations (adcTuple noBlock.cfg.adc) = [.eTConv]
      ∧ (ConfigValid (State.powerOn smallest).cfg ∧ (State.powerOn smallest).trace = [])
      ∧ ((inPhaseWith smallest .idle 0 [.ret []]).trace = .ret [] :: []
          ∧ (Op.ret []).wellFormed smallest.adc.lanes = false)
      ∧ (unusedPhase.trace = .tick false :: [] ∧ legalPhase unusedPhase.phase = false) := by decide
theorem witness_UnusedPhaseCodeFaultsATick :
    legalPhase unusedPhase.phase = false ∧ [true].length = unusedPhase.cfg.adc.lanes := by decide
theorem witness_EveryTickRowIsTheComposedTick :
    phaseCodeOk smallest.phaseCode = true ∧ (inPhase smallest .read 0).phase = .named .read ∧ (inPhase smallest .rtt 0).phase = .named .rtt := by decide
theorem witness_StartIsIgnoredOutsideIdle : (inPhase smallest .cnvh 0).phase ≠ .named .idle := by decide
/-- The default width, and a width of nine bits. -/
theorem witness_ReloadConstantsFitTheCounter : ConfigValid smallest ∧ ConfigValid .s8 ∧ ConfigValid recoded := by decide
theorem witness_RotationKeepsTheRing :
    phaseCodeOk smallest.phaseCode = true ∧ (inPhase smallest .read 1).phase = .named .read ∧ (inPhase smallest .rtt 1).phase = .named .rtt := by decide
/-- The clause on `rst = 1` and the clause on a selected row. -/
theorem witness_TransitionKeyFields :
    decodeKey smallest.phaseCode ((inPhase smallest .rtt 0).key true true) = .ok .rst
      ∧ (KeyRow.mk 0b000101#6 0b111101#6 .cnvhEnd).selects 0b000111#6 = true := by decide
theorem witness_SckShowsTheLowBits :
    (State.powerOn smallest).cfg.ddr = .hiFirst
      ∧ (State.powerOn { smallest with ddr := .loFirst }).cfg.ddr = .loFirst := by decide
/-- The smallest block with the other DDR order. -/
def smallestLoFirst : Config := { smallest with ddr := .loFirst }

/-- The first and the last READ cycle and a cycle outside READ. -/
theorem witness_SckWaveformInRead :
    ConfigValid smallest ∧ smallest.ddr = .hiFirst ∧ smallest.seed = 0b111000#6
      ∧ (ClockPhase (inPhase smallest .read 2) ∧ (inPhase smallest .read 2).count + 0 + 1 = smallest.readDuration)
      ∧ (ClockPhase lastRead ∧ lastRead.phase = .named .read ∧ lastRead.count + 2 + 1 = smallest.readDuration)
      ∧ (ClockPhase (inPhase smallest .rtt 0) ∧ (inPhase smallest .rtt 0).phase ≠ .named .read) := by decide
/-- The first READ cycle and a cycle outside READ under the other DDR order. -/
theorem witness_SckWaveformInRead_loFirst :
    ConfigValid smallestLoFirst ∧ smallestLoFirst.ddr = .loFirst ∧ smallestLoFirst.seed = 0b111000#6
      ∧ (ClockPhase (inPhase smallestLoFirst .read 2)
          ∧ (inPhase smallestLoFirst .read 2).count + 0 + 1 = smallestLoFirst.readDuration)
      ∧ (ClockPhase (inPhase smallestLoFirst .idle 0) ∧ (inPhase smallestLoFirst .idle 0).phase ≠ .named .read) := by decide
/-- Zero, the smallest width, and the neighbours of the most negative word. -/
theorem witness_CorrectionIsNegation :
    (1 ≤ (Word.mk 1 0#1).width ∧ (Word.mk 1 0#1).toNat = 0)
      ∧ (1 ≤ (Word.mk 2 0b01#2).width ∧ (Word.mk 2 0b01#2).toNat ≠ 0
          ∧ (Word.mk 2 0b01#2).toNat ≠ 2 ^ ((Word.mk 2 0b01#2).width - 1))
      ∧ ((Word.mk 2 0b11#2).toNat ≠ 0 ∧ (Word.mk 2 0b11#2).toNat ≠ 2 ^ ((Word.mk 2 0b11#2).width - 1)) := by decide
/-- Of one bit and of two. -/
theorem witness_MostNegativeWordIsItsOwnNegation :
    (1 ≤ (Word.mk 1 1#1).width ∧ (Word.mk 1 1#1).toNat = 2 ^ ((Word.mk 1 1#1).width - 1))
      ∧ (1 ≤ (Word.mk 2 0b10#2).width ∧ (Word.mk 2 0b10#2).toNat = 2 ^ ((Word.mk 2 0b10#2).width - 1)) := by decide
/-- The last bit of the last channel, and the last bit of the last window. -/
theorem witness_DefaultDeintCoversTheWindows :
    ConfigValid twoLanes ∧ twoLanes.deint = .standard ∧ 1 < twoLanes.adc.channels ∧ 3 < twoLanes.adc.width
      ∧ deintAt twoLanes 1 3 = some (0, 3) ∧ 1 < twoLanes.adc.lanes ∧ 3 < twoLanes.windowBits := by decide

/-- An update tick of the smallest block whose window holds a 1. -/
def oneReceived : State := { inPhase smallest .rtt 0 with sr := [laneOf 6 [true]] }

/-- A defined word, and a word with a `⊥` bit. -/
theorem witness_UpdatePublishesDefinedWords :
    (exec (.rttUpdate false) oneReceived = .next { inPhase smallest .idle 0 with data := [.val ⟨1, 1#1⟩], sr := [laneOf 6 [true]] }
        ∧ 0 < oneReceived.cfg.adc.channels
        ∧ rawBit oneReceived.cfg oneReceived.sr 0 0 = .val ((1#1).getLsbD 0))
      ∧ (exec (.rttUpdate false) (inPhase smallest .rtt 0) = .next (inPhase smallest .idle 0)
        ∧ 0 < smallest.adc.width ∧ rawBit smallest (inPhase smallest .rtt 0).sr 0 0 = .bot) :=
  ⟨⟨rfl, by decide, by decide⟩, rfl, by decide, by decide⟩
theorem witness_PortShowsTheDefinedWord :
    ({ inPhase smallest .idle 0 with data := [.val ⟨1, 1#1⟩] } : State).dataAt 0 = .val ⟨1, 1#1⟩
      ∧ (inPhase smallest .idle 0).dataAt 0 = .bot := by decide
/-- V-CFG-11, and one tuple for each code. -/
theorem witness_ConstructionVerdict :
    (∀ e, ¬ violates ⟨1, 1, 1, 1, 2, 1⟩ e)
      ∧ violates ⟨0, 1, 1, 1, 2, 1⟩ .eChannels ∧ violates ⟨1, 0, 1, 1, 2, 1⟩ .eLanes
      ∧ violates ⟨1, 3, 1, 1, 2, 1⟩ .eDivide ∧ violates ⟨1, 1, 0, 1, 2, 1⟩ .eWidth
      ∧ violates ⟨1, 1, 1, 0, 2, 1⟩ .eTCnvh ∧ violates ⟨1, 1, 1, 1, 1, 1⟩ .eTConv
      ∧ violates ⟨1, 1, 1, 1, 2, 0⟩ .eTRtt := by
  refine ⟨fun e => ?_, ?_⟩
  · cases e <;> simp [violates]
  · simp only [violates]; decide

/-- A READ tick of the smallest block, from its first READ cycle. -/
def firstRead : State := inPhaseWith smallest .read 2 [.tick false]

/-- The state after that tick. -/
def secondRead : State := { inPhase smallest .read 1 with clkSr := 0b100011#6 }

theorem witness_StepKeepsShapeAndConfiguration : step firstRead = .next secondRead ∧ WellShaped firstRead :=
  ⟨rfl, by decide⟩
/-- Under the default width and under a width of nine bits. -/
theorem witness_StepKeepsTheSequencerBounded :
    (SequencerBounded firstRead ∧ step firstRead = .next secondRead ∧ smallest.countReset ≤ smallest.tMax)
      ∧ (SequencerBounded (inPhaseWith recoded .cnvh 0 [.tick false])
        ∧ step (inPhaseWith recoded .cnvh 0 [.tick false]) = .next (inPhase recoded .conv 1)
        ∧ recoded.counterWidth ≠ .fitted) :=
  ⟨⟨by decide, rfl, by decide⟩, by decide, rfl, by decide⟩
theorem witness_StepKeepsTheClockPhase : ClockPhase firstRead ∧ step firstRead = .next secondRead := ⟨by decide, rfl⟩
/-- An update tick, and a reset with `COUNT_RESET = 0`. -/
theorem witness_StepKeepsIdleAtZero :
    (isReset (.tick false) = false ∧ IdleAtZero (inPhaseWith smallest .rtt 0 [.tick false])
        ∧ step (inPhaseWith smallest .rtt 0 [.tick false]) = .next (inPhase smallest .idle 0))
      ∧ (smallest.countReset = 0 ∧ step (inPhaseWith smallest .rtt 0 [.rst]) = .next (inPhase smallest .idle 0)) :=
  ⟨⟨by decide, by decide, rfl⟩, by decide, rfl⟩
theorem witness_PowerOnMeetsTheInvariants : Config.s8.countReset = 0 := by decide
theorem witness_SafeStatesStepOn : SafeState firstRead ∧ firstRead.trace ≠ [] := by decide
theorem witness_EveryRunReachesItsEnd :
    ConfigValid smallest
      ∧ (recoded = { smallest with phaseCode := otherCode, counterWidth := .bits 9 } ∧ ConfigValid recoded)
      ∧ ∀ op ∈ [Op.tick true, .ret [true], .coinc false false [true], .rst], op.wellFormed smallest.adc.lanes = true := by
  decide
/-- The last tick that stays in the phase, and the tick that ends it. -/
theorem witness_PhaseLastsUntilTheCounterEnds :
    ConfigValid smallest ∧ Phase.conv ≠ .idle ∧ (inPhase smallest .conv 1).phase = .named .conv
      ∧ (resetFree smallest [.tick true, .ret [true]] = true
          ∧ tickCount [.tick true, .ret [true]] ≤ (inPhase smallest .conv 1).count)
      ∧ (resetFree smallest [.tick true, .coinc false true [true]] = true
          ∧ tickCount [.tick true, .coinc false true [true]] = (inPhase smallest .conv 1).count + 1) := by decide
/-- The start alone, and all N ticks after it. -/
theorem witness_AcquisitionFollowsTheSchedule :
    ConfigValid smallest ∧ (inPhase smallest .idle 0).phase = .named .idle ∧ (inPhase smallest .idle 0).count = 0
      ∧ tickStart (.tick true) = some true
      ∧ (resetFree smallest [.tick true] = true ∧ tickCount [] ≤ smallest.acquisitionCycles)
      ∧ (resetFree smallest (.tick true :: ticks 7) = true ∧ tickCount (ticks 7) = smallest.acquisitionCycles) := by
  decide
/-- A whole period, its first tick, and its last. -/
theorem witness_HeldStartHasPeriodNPlusOne :
    ConfigValid smallest ∧ (inPhase smallest .idle 0).phase = .named .idle ∧ (inPhase smallest .idle 0).count = 0
      ∧ resetFree smallest (List.replicate 8 (.tick true)) = true
      ∧ (∀ op ∈ List.replicate 8 (Op.tick true), tickStart op ≠ some false)
      ∧ tickCount (List.replicate 8 (.tick true)) % (smallest.acquisitionCycles + 1) = 0
      ∧ tickCount (List.replicate 1 (.tick true)) % (smallest.acquisitionCycles + 1) = 0 + 1
      ∧ tickCount (List.replicate 7 (.tick true)) % (smallest.acquisitionCycles + 1) = 6 + 1 := by decide
theorem witness_IdleWithoutStartIsQuiescent :
    ConfigValid smallest ∧ (inPhase smallest .idle 0).phase = .named .idle ∧ (inPhase smallest .idle 0).count = 0
      ∧ resetFree smallest [.tick false, .ret [true], .coinc false false [true]] = true
      ∧ ∀ op ∈ [Op.tick false, .ret [true], .coinc false false [true]], tickStart op ≠ some true := by decide
/-- A tick that is no update tick, and a return edge. -/
theorem witness_DataIsStableBetweenUpdates :
    (step firstRead = .next secondRead ∧ isReset (.tick false) = false ∧ firstRead.update = false)
      ∧ (step { oneReceived with trace := [.ret [true]] } = .next { oneReceived with sr := [laneOf 6 [true, true]] }
        ∧ isReset (.ret [true]) = false ∧ tickStart (.ret [true]) = none) :=
  ⟨⟨rfl, by decide, by decide⟩, rfl, by decide, by decide⟩
/-- A return edge, and a tick outside READ that is no update tick. -/
theorem witness_EachRegisterHasOneWriter :
    (step { oneReceived with trace := [.ret [true]] } = .next { oneReceived with sr := [laneOf 6 [true, true]] }
        ∧ tickStart (.ret [true]) = none)
      ∧ (step (inPhaseWith smallest .cnvh 0 [.tick false]) = .next (inPhase smallest .conv 1)
        ∧ isReset (.tick false) = false ∧ edgeLevels (.tick false) = none
        ∧ (inPhaseWith smallest .cnvh 0 [.tick false]).sckEn = false
        ∧ (inPhaseWith smallest .cnvh 0 [.tick false]).update = false) :=
  ⟨⟨rfl, by decide⟩, rfl, by decide, by decide, by decide, by decide⟩
theorem witness_TicksReadNoLaneRegister :
    isTickRow (.cnvhEnd true) = true ∧ (inPhase smallest .cnvh 0).update = false
      ∧ exec (.cnvhEnd true) (inPhase smallest .cnvh 0) = .next (inPhase smallest .conv 1) :=
  ⟨by decide, by decide, rfl⟩
theorem witness_TickAndReturnEdgeCommute :
    isTickRow (.cnvhEnd true) = true ∧ (inPhase smallest .cnvh 0).update = false
      ∧ [true].length = (inPhase smallest .cnvh 0).cfg.adc.lanes
      ∧ exec (.cnvhEnd true) (inPhase smallest .cnvh 0) = .next (inPhase smallest .conv 1) :=
  ⟨by decide, by decide, by decide, rfl⟩
/-- Bits 0 and 1 of lane 0 after one edge, and its last bit. -/
theorem witness_LanesHoldTheLastEdges :
    ConfigValid smallest ∧ legalPhase (inPhase smallest .read 2).phase = true ∧ WellShaped (inPhase smallest .read 2)
      ∧ resetFree smallest [.ret [true]] = true ∧ 0 < smallest.adc.lanes ∧ 5 < smallest.srDepth
      ∧ 0 < (returnEdges [.ret [true]]).length ∧ ¬ 1 < (returnEdges [.ret [true]]).length := by decide

/-- Before the update tick of the smallest block, with nothing received. -/
def nothingReceived : State := inPhase smallest .rtt 0

theorem witness_EnoughEdgesPublishDefinedWords :
    ConfigValid smallest ∧ smallest.deint = .standard ∧ WellShaped nothingReceived
      ∧ resetFree smallest [.ret [true]] = true ∧ smallest.windowBits ≤ (returnEdges [.ret [true]]).length
      ∧ runOps [.ret [true]] nothingReceived = .next oneReceived ∧ oneReceived.update = true :=
  ⟨by decide, by decide, by decide, by decide, by decide, rfl, by decide⟩
theorem witness_TransferPublishesTheNegatedWords :
    ConfigValid smallest ∧ smallest.deint = .standard ∧ WellShaped nothingReceived
      ∧ areChannelWords smallest [⟨1, 1#1⟩] = true ∧ resetFree smallest [.ret [true]] = true
      ∧ PXfer smallest [⟨1, 1#1⟩] [.ret [true]]
      ∧ runOps [.ret [true]] nothingReceived = .next oneReceived ∧ oneReceived.update = true ∧ 0 < smallest.adc.channels :=
  ⟨by decide, by decide, by decide, by decide, by decide, ⟨[], rfl⟩, rfl, by decide, by decide⟩
theorem witness_EqualTransfersPublishEqualWords :
    ConfigValid smallest ∧ smallest.deint = .standard ∧ oneReceived.cfg = nothingReceived.cfg ∧ WellShaped nothingReceived
      ∧ WellShaped oneReceived ∧ resetFree smallest [.ret [true]] = true ∧ [[true]].length = smallest.windowBits
      ∧ [[true]] <:+ returnEdges [.ret [true]] ∧ runOps [.ret [true]] nothingReceived = .next oneReceived
      ∧ runOps [.ret [true]] oneReceived = .next { oneReceived with sr := [laneOf 6 [true, true]] }
      ∧ oneReceived.update = true ∧ ({ oneReceived with sr := [laneOf 6 [true, true]] } : State).update = true :=
  ⟨by decide, by decide, rfl, by decide, by decide, by decide, by decide, ⟨[], rfl⟩, rfl, rfl, by decide, by decide⟩
/-- The first and the last line of a transfer of two words, in both lane positions. -/
theorem witness_SendMeetsTheTransferPremise :
    returnEdges [.tick false, .rst] = [] ∧ 0 < twoLanes.windowBits ∧ 3 < twoLanes.windowBits
      ∧ (0 < twoLanes.adc.lanes ∧ [Word.mk 4 0x5#4, ⟨4, 0xC#4⟩][(2 - 1 - 0) * twoLanes.wordsPerLane + 3 / 4]? = some ⟨4, 0xC#4⟩)
      ∧ (1 < twoLanes.adc.lanes
          ∧ [Word.mk 4 0x5#4, ⟨4, 0xC#4⟩][(2 - 1 - 1) * twoLanes.wordsPerLane + 0 / 4]? = some ⟨4, 0x5#4⟩) := by decide
theorem witness_AcquireEndsWithTheUpdate :
    ConfigValid smallest ∧ ClockPhase (inPhase smallest .idle 0) ∧ (inPhase smallest .idle 0).phase = .named .idle
      ∧ (inPhase smallest .idle 0).count = 0 := by decide
theorem witness_StimulusLinesReadBack :
    1 ≤ smallest.adc.lanes ∧ (Op.coinc true false [true]).wellFormed smallest.adc.lanes = true
      ∧ ∀ sdo, Op.coinc true false [true] ≠ .coinc true true sdo := by
  refine ⟨by decide, by decide, fun sdo h => ?_⟩
  cases h

end Sys2Proof.Tests
end

section
/-! What a step of each kind of operation can do: a TICK is the composed tick of the state it meets, a RET shifts the lanes,
and a COINC without reset is both from one state. -/

namespace Sys2Proof.Machine

/-! ## The TICK rows and the composed tick -/

/-- The `start` input that a TICK row stands for: fixed by the row in IDLE, the operand in every other phase. -/
def tickRowStart : Instr → Option Bool
  | .idleWait => some false
  | .idleDrain => some false
  | .idleStart => some true
  | .idleStartEarly => some true
  | .cnvhHold start => some start
  | .cnvhEnd start => some start
  | .convHold start => some start
  | .convEnd start => some start
  | .readShift start => some start
  | .readEnd start => some start
  | .rttHold start => some start
  | .rttUpdate start => some start
  | .rst => none
  | .ret _ => none
  | .coinc _ _ _ => none

/-- The composed tick with its phase and `count_done` given, so that it evaluates to each TICK row's own result. -/
def State.afterTick (s : State) (p : Phase) (done start : Bool) (samples : List (List (Lifted Bool))) : State :=
  { s with
    phase := .named (nextPhase p start done)
    count := if done then countLoad s.cfg p start else s.count - 1
    clkSr := if p = .read then rotl6 s.clkSr 2 else s.clkSr
    data := if p = .rtt ∧ done = true then published s.cfg samples else s.data }

/-- The composed tick in a state of phase `p` with `count_done = done` (40_controller.md R73). -/
theorem controllerTick_of_key {s : State} {p : Phase} {done : Bool} (start : Bool)
    (samples : List (List (Lifted Bool))) (hp : s.phase = .named p) (hd : s.countDone = done) :
    controllerTick start samples s = .next (s.afterTick p done start samples) := by
  simp [controllerTick, State.afterTick, nextCount, nextClkSr, nextData, State.sckEn, State.update, hp, hd]

/-- A row that writes what the composed tick writes under the row's key is the composed tick wherever it applies. -/
theorem controllerTick_of_tickRow {s t : State} {p : Phase} {done start : Bool} {samples : List (List (Lifted Bool))}
    (h : tickRow p done s (s.afterTick p done start samples) = .next t) : controllerTick start samples s = .next t := by
  obtain ⟨⟨hp, hd⟩, rfl⟩ := tickRow_eq_next_iff.1 h
  exact controllerTick_of_key start samples hp hd

/-- A TICK row that applies is the composed tick on the lanes as they stand (40_controller.md R73). -/
theorem controllerTick_of_exec {i : Instr} {start : Bool} {s t : State} (hi : tickRowStart i = some start)
    (h : exec i s = .next t) : controllerTick start s.sampleOrdered s = .next t := by
  cases i with
  | idleWait => cases hi; exact controllerTick_of_tickRow (p := .idle) (done := true) h
  | idleDrain => cases hi; exact controllerTick_of_tickRow (p := .idle) (done := false) h
  | idleStart => cases hi; exact controllerTick_of_tickRow (p := .idle) (done := true) h
  | idleStartEarly => cases hi; exact controllerTick_of_tickRow (p := .idle) (done := false) h
  | cnvhHold => exact controllerTick_of_tickRow (p := .cnvh) (done := false) h
  | cnvhEnd => exact controllerTick_of_tickRow (p := .cnvh) (done := true) h
  | convHold => exact controllerTick_of_tickRow (p := .conv) (done := false) h
  | convEnd => exact controllerTick_of_tickRow (p := .conv) (done := true) h
  | readShift => exact controllerTick_of_tickRow (p := .read) (done := false) h
  | readEnd => exact controllerTick_of_tickRow (p := .read) (done := true) h
  | rttHold => exact controllerTick_of_tickRow (p := .rtt) (done := false) h
  | rttUpdate => exact controllerTick_of_tickRow (p := .rtt) (done := true) h
  | rst => cases hi
  | ret => cases hi
  | coinc => cases hi

/-- What the composed tick leaves unchanged, whatever it samples (40_controller.md R73, 41_clock_synth.md R102,
43_publisher.md R130). -/
theorem controllerTick_frame {start : Bool} {samples : List (List (Lifted Bool))} {s t : State}
    (h : controllerTick start samples s = .next t) :
    t.cfg = s.cfg ∧ t.sr = s.sr ∧ t.trace = s.trace
      ∧ (s.sckEn = false → t.clkSr = s.clkSr) ∧ (s.update = false → t.data = s.data) := by
  obtain ⟨p, -, rfl⟩ := controllerTick_eq_next_iff.1 h
  exact ⟨rfl, rfl, rfl, fun hk => by simp [nextClkSr, hk], fun hu => by simp [nextData, hu]⟩

/-! ## The words of operations -/

/-- A row that fixes every bit of the key fixes `start` (30_encoding.md R57). -/
theorem start_eq_of_selects_all {rst start start' done done' : Bool} {phase phase' : BitVec 3} {build : Bool → Instr}
    (h : (KeyRow.mk (transitionKey rst phase' start' done') 0b111111#6 build).selects
      (transitionKey rst phase start done) = true) : start' = start := by
  simp only [KeyRow.selects, and_mask_all, beq_iff_eq, transitionKey_eq_iff] at h
  obtain ⟨-, -, hstart, -⟩ := h
  exact hstart.symm

/-- A row that a key with `rst = 0` selects is a TICK row with that key's `start`: the IDLE rows fix it, the rows of the
other phases take it as their operand, and RST is not selected (30_encoding.md R57, R60). -/
theorem tickRowStart_of_selects {code : PhaseCode} {phase : BitVec 3} {start countDone : Bool} {row : KeyRow}
    (hmem : row ∈ keyRows code) (hsel : row.selects (transitionKey false phase start countDone) = true) :
    tickRowStart (row.build start) = some start := by
  simp only [keyRows, List.mem_cons, List.not_mem_nil, or_false] at hmem
  rcases hmem with rfl | rfl | rfl | rfl | rfl | rfl | rfl | rfl | rfl | rfl | rfl | rfl | rfl
  iterate 4 exact congrArg some (start_eq_of_selects_all hsel)
  iterate 8 rfl
  · simp [KeyRow.selects, transitionKey_and_mask_rst] at hsel

/-- A key with `rst = 0` decodes at most to a TICK row with its own `start`. -/
theorem tickRowStart_of_decodeKey {code : PhaseCode} {phase : BitVec 3} {start countDone : Bool} {i : Instr}
    (h : decodeKey code (transitionKey false phase start countDone) = .ok i) : tickRowStart i = some start := by
  obtain ⟨-, -, hstart, -⟩ := transitionKey_fields false start countDone phase
  unfold decodeKey at h
  split at h
  · next row hrow =>
    have hsel : row.selects (transitionKey false phase start countDone) = true := by simpa using List.find?_some hrow
    cases h
    rw [hstart]
    exact tickRowStart_of_selects (List.mem_of_find?_eq_some hrow) hsel
  · cases h

/-- The word of a TICK decodes at most to a TICK row with its own `start`. -/
theorem tickRowStart_of_decode_tick {s : State} {start : Bool} {lanes : Nat} {i : Instr} {after : List Byte}
    (h : decode s.cfg.phaseCode lanes (operationWord s (.tick start)) = .ok (i, after)) :
    tickRowStart i = some start := by
  have hw := decode_keyWord s.cfg.phaseCode lanes (s.key false start) []
  rw [List.append_nil] at hw
  rw [operationWord, hw] at h
  split at h
  · next j hj => cases h; exact tickRowStart_of_decodeKey hj
  · cases h

/-- The word of a RET on its own block decodes to it. -/
theorem decode_retWord (code : PhaseCode) {lanes : Nat} {sdo : List Bool} (after : List Byte) (h : sdo.length = lanes) :
    decode code lanes (retWord sdo ++ after) = .ok (.ret sdo, after) := by
  simp [decode, retWord, formatByte_fields, edgesReturn, edgesController, decodeSdo_packSdo after h]

/-- The word of a COINC on its own block decodes to it. -/
theorem decode_coincWord (code : PhaseCode) {lanes : Nat} (rst start : Bool) {sdo : List Bool} (after : List Byte)
    (h : sdo.length = lanes) : decode code lanes (coincWord rst start sdo ++ after) = .ok (.coinc rst start sdo, after) := by
  have hreserved : transitionKey rst 0b000#3 start false &&& coincReserved = 0#6 := by
    revert rst start; decide
  obtain ⟨hrst, -, hstart, -⟩ := transitionKey_fields rst start false 0b000#3
  simp [decode, coincWord, formatByte_fields, edgesReturn, edgesController, edgesBoth, hreserved, hrst, hstart,
    decodeSdo_packSdo after h, -BitVec.getLsbD_eq_getElem]

/-! ## What a step can do -/

/-- All that a step can do: it runs the instruction of the next operation's word (20_memory.md R47). -/
theorem step_eq_next_cases {s t : State} {op : Op} {rest : List Op} (ht : s.trace = op :: rest) (h : step s = .next t) :
    op.wellFormed s.cfg.adc.lanes = true ∧ ∃ i after,
      decode s.cfg.phaseCode s.cfg.adc.lanes (operationWord s op) = .ok (i, after)
        ∧ exec i (s.consume rest) = .next t := by
  unfold step at h
  split at h
  · next i u hf =>
    obtain ⟨-, op', rest', after, ht', hw, hd, rfl⟩ := fetch_eq_next_cases hf
    cases ht.symm.trans ht'
    exact ⟨hw, i, after, hd, h⟩
  · cases h
  · cases h

/-- All that a step of a TICK can do: the composed tick, on the lanes as they stand (40_controller.md R73). -/
theorem step_tick_cases {s t : State} {start : Bool} {rest : List Op} (ht : s.trace = .tick start :: rest)
    (h : step s = .next t) : controllerTick start s.sr (s.consume rest) = .next t := by
  obtain ⟨-, i, after, hd, he⟩ := step_eq_next_cases ht h
  exact controllerTick_of_exec (tickRowStart_of_decode_tick hd) he

/-- All that a step of a RET can do: every lane shifts (42_deserializer.md R111). -/
theorem step_ret_cases {s t : State} {sdo : List Bool} {rest : List Op} (ht : s.trace = .ret sdo :: rest)
    (h : step s = .next t) : t = (s.consume rest).returnEdge sdo := by
  obtain ⟨hw, i, after, hd, he⟩ := step_eq_next_cases ht h
  have hword := decode_retWord s.cfg.phaseCode [] (eq_of_beq hw)
  rw [List.append_nil] at hword
  cases hword.symm.trans hd
  obtain ⟨-, ht⟩ := withSdo_eq_next_iff.1 he
  cases ht
  rfl

/-- All that a step of a COINC with `rst = 0` can do: the composed tick on samples of `⊥`, and every lane shifts
(20_memory.md R48). -/
theorem step_coinc_cases {s t : State} {start : Bool} {sdo : List Bool} {rest : List Op}
    (ht : s.trace = .coinc false start sdo :: rest) (h : step s = .next t) :
    ∃ u, controllerTick start s.sampleCoincident (s.consume rest) = .next u ∧ t = { u with sr := shiftLanes s.sr sdo } := by
  obtain ⟨hw, i, after, hd, he⟩ := step_eq_next_cases ht h
  have hword := decode_coincWord s.cfg.phaseCode false start [] (eq_of_beq hw)
  rw [List.append_nil] at hword
  cases hword.symm.trans hd
  obtain ⟨-, hc⟩ := withSdo_eq_next_iff.1 he
  exact coincTick_eq_next_iff.1 hc

end Sys2Proof.Machine
end

section
/-! Which registers a step without reset can write (10_state.md R35). -/

namespace Sys2Proof.Safety

open Sys2Proof.Machine

/-- Settles O51, by the kind of operation: a TICK is a composed tick, a RET writes the lanes alone, and a COINC without
reset is a composed tick whose lanes are then written. -/
theorem eachRegisterHasOneWriter : Obligations.EachRegisterHasOneWriter := by
  intro s t op rest ht h hr
  cases op with
  | tick start =>
    obtain ⟨-, hsr, -, hclk, hdata⟩ := controllerTick_frame (step_tick_cases ht h)
    exact ⟨nofun, fun _ => hsr, hclk, hdata⟩
  | rst => cases hr
  | ret sdo =>
    cases step_ret_cases ht h
    exact ⟨fun _ => rfl, nofun, fun _ => rfl, fun _ => rfl⟩
  | coinc rst start sdo =>
    cases rst with
    | true => cases hr
    | false =>
      obtain ⟨u, hu, rfl⟩ := step_coinc_cases ht h
      obtain ⟨-, -, -, hclk, hdata⟩ := controllerTick_frame hu
      exact ⟨nofun, nofun, hclk, hdata⟩

end Sys2Proof.Safety
end

section
/-! The row that a tick selects and what it answers, and a COINC as the two operations that it puts together: the tick's
answer with other samples, and the lanes of the return edge (20_memory.md R45, R48). -/

namespace Sys2Proof.Machine

/-! ## The selected row -/

/-- The TICK row for each phase, `start` and `count_done` (30_encoding.md R60). -/
def selectedRow (p : Phase) (start done : Bool) : Instr :=
  match p with
  | .idle =>
    match start, done with
    | false, true => .idleWait
    | false, false => .idleDrain
    | true, true => .idleStart
    | true, false => .idleStartEarly
  | .cnvh => if done then .cnvhEnd start else .cnvhHold start
  | .conv => if done then .convEnd start else .convHold start
  | .read => if done then .readEnd start else .readShift start
  | .rtt => if done then .rttUpdate start else .rttHold start

/-- A tick's key decodes to the row of its phase: under an injective `PHASE_CODE` no other phase's rows match it
(30_encoding.md R57, R65). -/
theorem decodeKey_of_phase {code : PhaseCode} (h : phaseCodeOk code = true) (p : Phase) (start done : Bool) :
    decodeKey code (transitionKey false (phaseCode code p) start done) = .ok (selectedRow p start done) := by
  have hcode (q : Phase) : (phaseCode code p == phaseCode code q) = decide (p = q) := by
    rw [Bool.eq_iff_iff]
    simpa using ⟨phaseCode_injective h, congrArg _⟩
  have hidle : (phaseCode code p == code.idle) = decide (p = .idle) := hcode .idle
  have hcnvh : (phaseCode code p == code.cnvh) = decide (p = .cnvh) := hcode .cnvh
  have hconv : (phaseCode code p == code.conv) = decide (p = .conv) := hcode .conv
  have hread : (phaseCode code p == code.read) = decide (p = .read) := hcode .read
  have hrtt : (phaseCode code p == code.rtt) = decide (p = .rtt) := hcode .rtt
  obtain ⟨-, -, hstart, -⟩ := transitionKey_fields false start done (phaseCode code p)
  simp only [decodeKey, keyRows, KeyRow.selects, transitionKey_and_mask_start, transitionKey_and_mask_rst, and_mask_all,
    transitionKey_beq, hidle, hcnvh, hconv, hread, hrtt, hstart, List.find?]
  cases p with
  | idle => cases start <;> cases done <;> rfl
  | cnvh => cases done <;> rfl
  | conv => cases done <;> rfl
  | read => cases done <;> rfl
  | rtt => cases done <;> rfl

/-- The row of a key writes what the composed tick writes under that key (40_controller.md R74 to R85). -/
theorem exec_selectedRow (s : State) (p : Phase) (start done : Bool) :
    exec (selectedRow p start done) s = tickRow p done s (s.afterTick p done start s.sampleOrdered) := by
  cases p with
  | idle => cases start <;> cases done <;> rfl
  | cnvh => cases done <;> rfl
  | conv => cases done <;> rfl
  | read => cases done <;> rfl
  | rtt => cases done <;> rfl

/-- A legal phase is the code of a phase (30_encoding.md R61). -/
theorem legalPhase_iff {r : PhaseReg} : Safety.legalPhase r = true ↔ ∃ p, r = .named p := by
  cases r <;> simp [Safety.legalPhase]

/-- In a legal phase a tick selects a row, and the row applies (30_encoding.md R64). -/
theorem exists_exec_of_legalPhase {s : State} (hcode : phaseCodeOk s.cfg.phaseCode = true)
    (hlegal : Safety.legalPhase s.phase = true) (start : Bool) :
    ∃ i t, decodeKey s.cfg.phaseCode (s.key false start) = .ok i ∧ exec i s = .next t := by
  obtain ⟨p, hp⟩ := legalPhase_iff.1 hlegal
  refine ⟨selectedRow p start s.countDone, s.afterTick p s.countDone start s.sampleOrdered, ?_, ?_⟩
  · rw [State.key, hp]
    exact decodeKey_of_phase hcode p start s.countDone
  · rw [exec_selectedRow]
    exact tickRow_of_key _ hp rfl

/-! ## Samples of a coincident tick -/

/-- The samples reach `data` alone: with others the composed tick differs in that register and nowhere else
(43_publisher.md R130). -/
theorem controllerTick_of_samples {start : Bool} {samples : List (List (Lifted Bool))} {s t : State}
    (samples' : List (List (Lifted Bool))) (h : controllerTick start samples s = .next t) :
    controllerTick start samples' s = .next { t with data := nextData s samples' } := by
  obtain ⟨p, hp, rfl⟩ := controllerTick_eq_next_iff.1 h
  exact controllerTick_eq_next_iff.2 ⟨p, hp, rfl⟩

/-- Every bit sampled at a coincident tick is `⊥` (20_memory.md R45). -/
theorem sampleBit_sampleCoincident (s : State) (p q : Nat) : sampleBit s.sampleCoincident p q = .bot := by
  cases hp : s.sr[p]? with
  | none => simp [sampleBit, State.sampleCoincident, List.getD, hp]
  | some lane => cases lane[q]? <;> simp [sampleBit, State.sampleCoincident, List.getD, hp]

/-- Every raw bit of a coincident tick is `⊥`, under every DEINT (43_publisher.md R120). -/
theorem rawBit_sampleCoincident (c : Config) (s : State) (ch b : Nat) :
    rawBit c s.sampleCoincident ch b = .bot := by
  unfold rawBit
  split
  · exact sampleBit_sampleCoincident ..
  · rfl

/-- A coincident tick publishes `⊥` in every word; a word has at least one bit to be `⊥` (43_publisher.md R131). -/
theorem published_sampleCoincident {c : Config} (hw : 0 < c.adc.width) (s : State) :
    published c s.sampleCoincident = List.replicate c.adc.channels .bot := by
  have hword (ch : Nat) : publishWord (rawBits c s.sampleCoincident ch) = .bot :=
    publishWord_of_bot (List.mem_map.2 ⟨0, List.mem_range.2 hw, rawBit_sampleCoincident c s ch 0⟩)
  simp [published, hword]

/-! ## RET and COINC on their own block -/

/-- A RET on its own block shifts every lane (42_deserializer.md R111). -/
theorem exec_ret_of_length {s : State} {sdo : List Bool} (h : sdo.length = s.cfg.adc.lanes) :
    exec (.ret sdo) s = .next (s.returnEdge sdo) :=
  withSdo_of_length _ h

/-- A COINC with `rst = 1` on its own block is a RST (70_reset_and_hazards.md R150). -/
theorem exec_coinc_rst_of_length {s : State} {sdo : List Bool} (start : Bool) (h : sdo.length = s.cfg.adc.lanes) :
    exec (.coinc true start sdo) s = exec .rst s :=
  withSdo_of_length _ h

/-- A COINC with `rst = 0` on its own block is the TICK row that applies and the return edge, from one state; `data` follows
the coincident samples (20_memory.md R48). -/
theorem exec_coinc_of_exec {s t : State} {i : Instr} {start : Bool} {sdo : List Bool} (h : sdo.length = s.cfg.adc.lanes)
    (hi : tickRowStart i = some start) (ht : exec i s = .next t) :
    exec (.coinc false start sdo) s =
      .next { t with sr := (s.returnEdge sdo).sr, data := nextData s s.sampleCoincident } := by
  have htick := controllerTick_of_samples s.sampleCoincident (controllerTick_of_exec hi ht)
  exact (withSdo_of_length _ h).trans (coincTick_eq_next_iff.2 ⟨_, htick, rfl⟩)

end Sys2Proof.Machine
end

section
/-! Coincident edges (20_memory.md R48). -/

namespace Sys2Proof.Safety

open Sys2Proof.Machine

/-- Settles O17: the COINC is the row that the tick selects, with the lanes of the RET and with `data` from the coincident
samples, which an ordinary tick does not read and which an update tick publishes as `⊥`. -/
theorem coincIsTickAndReturnOfOneState : Obligations.CoincIsTickAndReturnOfOneState := by
  intro s start sdo hc hlen
  obtain ⟨⟨-, -, -, hwidth, -⟩, -, -, hcode, -⟩ := hc
  refine ⟨exec_coinc_rst_of_length start hlen, fun hlegal => ?_⟩
  obtain ⟨i, t, hdec, hexec⟩ := exists_exec_of_legalPhase hcode hlegal start
  have hi : tickRowStart i = some start := tickRowStart_of_decodeKey hdec
  refine ⟨i, t, s.returnEdge sdo, hdec, hexec, exec_ret_of_length hlen, fun hu => ?_, fun hu => ?_⟩
  · obtain ⟨-, -, -, -, hdata⟩ := controllerTick_frame (controllerTick_of_exec hi hexec)
    have hkeep : nextData s s.sampleCoincident = t.data := by simp [nextData, hu, hdata hu]
    rw [exec_coinc_of_exec hlen hi hexec, hkeep]
  · have hbot : nextData s s.sampleCoincident = List.replicate s.cfg.adc.channels .bot := by
      simp [nextData, hu, published_sampleCoincident hwidth]
    rw [exec_coinc_of_exec hlen hi hexec, hbot]

end Sys2Proof.Safety
end

section
/-! The reload constants against `T_MAX` and the counter register (30_encoding.md R58, 92_eei_decisions.md D3). -/

namespace Sys2Proof.Machine

/-- The division in `R = 3 * W * C / L` is exact (30_encoding.md R58). -/
theorem lanes_mul_readDuration {c : Config} (h : AdcValid c.adc) :
    c.adc.lanes * c.readDuration = 3 * c.adc.width * c.adc.channels := by
  rw [readDuration_eq h, channels_eq h, Config.windowBits]
  ring

/-- `T_MAX` is no less than the reload constant of any phase (00_scope.md R8). -/
theorem reloadConstants_le_tMax (c : Config) :
    c.ldCnvh ≤ c.tMax ∧ c.ldConv ≤ c.tMax ∧ c.ldRead ≤ c.tMax ∧ c.ldRtt ≤ c.tMax := by
  unfold Config.ldCnvh Config.ldConv Config.ldRead Config.ldRtt Config.tMax
  omega

/-- No load gives the counter more than `T_MAX` (40_controller.md R71). -/
theorem countLoad_le_tMax (c : Config) (p : Phase) (start : Bool) : countLoad c p start ≤ c.tMax := by
  obtain ⟨hcnvh, hconv, hread, hrtt⟩ := reloadConstants_le_tMax c
  cases p with
  | idle =>
    cases start with
    | true => exact hcnvh
    | false => exact Nat.zero_le _
  | cnvh => exact hconv
  | conv => exact hread
  | read => exact hrtt
  | rtt => exact Nat.zero_le _

/-- `T_MAX` fits the counter register: the default width is at least its bit length, and a width given otherwise holds every
value of the counter (92_eei_decisions.md D3, 40_controller.md R96). -/
theorem tMax_lt_two_pow_counterBits {c : Config} (h : counterWidthOk c = true) : c.tMax < 2 ^ c.counterBits := by
  cases hw : c.counterWidth with
  | fitted =>
    have hbits : Nat.size c.tMax ≤ c.counterBits := by simp [Config.counterBits, hw]
    exact Nat.size_le.1 hbits
  | bits n =>
    have hbits : c.counterBits = n := by simp [Config.counterBits, hw]
    have hmax : c.countMax < 2 ^ n := by simpa [counterWidthOk, hw] using h
    rw [hbits]
    exact (Nat.le_max_left _ _).trans_lt hmax

end Sys2Proof.Machine
end

section
/-! The transition key of a state and the constants that the counter loads (30_encoding.md R57, R58). -/

namespace Sys2Proof.Safety

open Sys2Proof.Machine

/-- Settles O18: the key of a state is the transition key of its registers, whose fields are known. -/
theorem transitionKeyFields : Obligations.TransitionKeyFields := by
  refine ⟨fun s rst start => ?_, fun row key => beq_iff_eq⟩
  obtain ⟨hrst, hphase, hstart, hdone⟩ :=
    transitionKey_fields rst start s.countDone (phaseRegCode s.cfg.phaseCode s.phase)
  refine ⟨hrst, hphase, hstart, hdone, fun h => ?_⟩
  subst h
  exact decodeKey_rst _ _ _ _

/-- Settles O29: the reload values are the model's constants; their bound, the exact division and the width of the counter
are a lemma each. -/
theorem reloadConstantsFitTheCounter : Obligations.ReloadConstantsFitTheCounter := by
  intro c hc
  obtain ⟨hadc, -, -, -, hwidth⟩ := hc
  exact ⟨⟨rfl, rfl, fun _ => rfl, fun _ => rfl, fun _ => rfl, fun _ => rfl⟩, countLoad_le_tMax c,
    lanes_mul_readDuration hadc, tMax_lt_two_pow_counterBits hwidth⟩

end Sys2Proof.Safety
end

section
/-! The key, the row and the flags of a tick, in terms of the phase and `count_done` (30_encoding.md R57, 40_controller.md
R70 to R90). -/

namespace Sys2Proof.Machine

/-! ## Flags -/

/-- `done` is phase IDLE (40_controller.md R86). -/
theorem done_iff {s : State} : s.done = true ↔ s.phase = .named .idle := beq_iff_eq

/-- `cnv` is phase CNVH (40_controller.md R87). -/
theorem cnv_iff {s : State} : s.cnv = true ↔ s.phase = .named .cnvh := beq_iff_eq

/-- `reading` is phase READ or RTT (40_controller.md R88). -/
theorem reading_iff {s : State} : s.reading = true ↔ s.phase = .named .read ∨ s.phase = .named .rtt := by
  simp [State.reading]

/-- `sck_en` is phase READ (40_controller.md R89). -/
theorem sckEn_iff {s : State} : s.sckEn = true ↔ s.phase = .named .read := beq_iff_eq

/-- The flags of an IDLE cycle (40_controller.md R74, R75). -/
theorem flags_of_idle {s : State} (hp : s.phase = .named .idle) :
    s.done = true ∧ s.cnv = false ∧ s.reading = false ∧ s.update = false ∧ s.sckEn = false := by
  simp [State.done, State.cnv, State.reading, State.update, State.sckEn, hp]

/-! ## Keys -/

/-- The key of a state, by its phase and `count_done` (30_encoding.md R57). -/
theorem key_of_phase {s : State} {p : Phase} {done : Bool} (hp : s.phase = .named p) (hd : s.countDone = done)
    (rst start : Bool) : s.key rst start = transitionKey rst (phaseCode s.cfg.phaseCode p) start done := by
  rw [State.key, hp, hd]
  rfl

/-- The key under a given `PHASE_CODE`, with `start` masked out (30_encoding.md R57). -/
theorem key_and_mask_start {s : State} {code : PhaseCode} {p : Phase} {done : Bool} (hcode : s.cfg.phaseCode = code)
    (hp : s.phase = .named p) (hd : s.countDone = done) (start : Bool) :
    s.key false start &&& 0b111101#6 = transitionKey false (phaseCode code p) false done := by
  rw [key_of_phase hp hd, transitionKey_and_mask_start, hcode]

/-- A tick's key selects the row of its phase (30_encoding.md R57, R65). -/
theorem decodeKey_key_of_phase {s : State} {p : Phase} {done : Bool} (hcode : phaseCodeOk s.cfg.phaseCode = true)
    (hp : s.phase = .named p) (hd : s.countDone = done) (start : Bool) :
    decodeKey s.cfg.phaseCode (s.key false start) = .ok (selectedRow p start done) := by
  rw [key_of_phase hp hd]
  exact decodeKey_of_phase hcode p start done

/-- A key of IDLE selects an IDLE row under every `PHASE_CODE`, injective or not: the IDLE rows come first in the map and
differ in the bits that they fix. -/
theorem decodeKey_idle (code : PhaseCode) (start done : Bool) :
    decodeKey code (transitionKey false code.idle start done) = .ok (selectedRow .idle start done) := by
  simp only [decodeKey, keyRows, KeyRow.selects, and_mask_all, transitionKey_beq, beq_self_eq_true, List.find?]
  cases start <;> cases done <;> rfl

/-- A tick's key in IDLE selects an IDLE row under every `PHASE_CODE`. -/
theorem decodeKey_key_of_idle {s : State} {done : Bool} (hp : s.phase = .named .idle) (hd : s.countDone = done)
    (start : Bool) : decodeKey s.cfg.phaseCode (s.key false start) = .ok (selectedRow .idle start done) := by
  rw [key_of_phase hp hd]
  exact decodeKey_idle s.cfg.phaseCode start done

/-! ## Writes -/

/-- Writing the phase that is held changes nothing. -/
theorem enter_of_phase {s : State} {p : Phase} (hp : s.phase = .named p) : s.enter p = s := by
  rw [State.enter, ← hp]

/-- Loading the value that is held changes nothing. -/
theorem loadCount_of_count {s : State} {n : Nat} (hn : s.count = n) : s.loadCount n = s := by
  rw [State.loadCount, ← hn]

/-- `rotl6(v, 2)` moves the two top bits below the others (41_clock_synth.md R102). -/
theorem rotl6_two_eq_append (v : BitVec 6) : rotl6 v 2 = v.extractLsb' 0 4 ++ v.extractLsb' 4 2 := by
  revert v; decide

/-- The last rotation of READ restores SEED: the read duration is a multiple of three, so it completes three rotations by
two (41_clock_synth.md R105, 40_controller.md R83). -/
theorem rotl6_clkSr_of_read_end {s : State} (hadc : AdcValid s.cfg.adc) (hclock : Safety.ClockPhase s)
    (hp : s.phase = .named .read) (hc : s.count = 0) : rotl6 s.clkSr 2 = s.cfg.seed := by
  obtain ⟨-, hread⟩ := hclock
  obtain ⟨-, hclk⟩ := hread hp
  have hturns : (s.cfg.readDuration - 1 - s.count) % 3 = 2 := by
    have hdur := readDuration_eq hadc
    have hpos := windowBits_pos hadc
    omega
  rw [hclk, hturns, rotl6_two_add]
  exact rotl6_of_mod s.cfg.seed rfl

end Sys2Proof.Machine
end

section
/-! The TICK rows and the flags of the controller (40_controller.md R72 to R89). -/

namespace Sys2Proof.Safety

open Sys2Proof.Machine

/-- Settles O26: the selected row writes the composed tick, whose conditions on `count_done` are those on the counter. -/
theorem everyTickRowIsTheComposedTick : Obligations.EveryTickRowIsTheComposedTick := by
  intro s p start hcode hp
  refine ⟨selectedRow p start s.countDone, decodeKey_key_of_phase hcode hp rfl start, ?_⟩
  rw [exec_selectedRow, tickRow_of_key _ hp rfl]
  simp only [State.afterTick, State.sampleOrdered, countDone_iff]

/-- Settles O1: the row writes the phase and the count that the state already holds. -/
theorem idleWaitKeepsEveryRegister : Obligations.IdleWaitKeepsEveryRegister := by
  intro s hp hc
  have hd := countDone_iff.2 hc
  refine ⟨decodeKey_key_of_idle hp hd false, fun hcode => ?_, ?_, flags_of_idle hp⟩
  · rw [key_of_phase hp hd, hcode]; rfl
  · have hsame : (s.enter .idle).loadCount s.cfg.ldZero = s := by rw [enter_of_phase hp]; exact loadCount_of_count hc
    exact (tickRow_of_key _ hp hd).trans (congrArg _ hsame)

/-- Settles O2: the row writes the phase that the state already holds, and decrements. -/
theorem idleDrainDecrementsTheCounter : Obligations.IdleDrainDecrementsTheCounter := by
  intro s hp hc
  have hd := countDone_false_iff.2 hc
  refine ⟨decodeKey_key_of_idle hp hd false, fun hcode => ?_, ?_, flags_of_idle hp⟩
  · rw [key_of_phase hp hd, hcode]; rfl
  · have hdrain : (s.enter .idle).decCount = { s with count := s.count - 1 } := by rw [enter_of_phase hp]; rfl
    exact (tickRow_of_key _ hp hd).trans (congrArg _ hdrain)

/-- Settles O3: with `t_cnvh = 1` the loaded count is 0, so the next key is that of the end of CNVH. -/
theorem idleStartEntersCnvh : Obligations.IdleStartEntersCnvh := by
  intro s hp hc
  have hd := countDone_iff.2 hc
  refine ⟨decodeKey_key_of_idle hp hd true, fun hcode => ?_, done_iff.2 hp, (s.enter .cnvh).loadCount s.cfg.ldCnvh,
    tickRow_of_key _ hp hd, rfl, rfl, rfl, fun hone => ?_⟩
  · rw [key_of_phase hp hd, hcode]; rfl
  · have hzero : ((s.enter .cnvh).loadCount s.cfg.ldCnvh).count = 0 := by simp [Config.ldCnvh, hone]
    exact ⟨hzero, fun hcode start => decodeKey_key_of_phase (s := (s.enter .cnvh).loadCount s.cfg.ldCnvh) hcode rfl
      (countDone_iff.2 hzero) start⟩

/-- Settles O6: the loaded count is at least 1 because R7 asks for `t_conv` of at least 2. -/
theorem cnvhEndEntersConv : Obligations.CnvhEndEntersConv := by
  intro s start hp hc
  have hd := countDone_iff.2 hc
  refine ⟨fun hcode => decodeKey_key_of_phase hcode hp hd start, fun hcode => key_and_mask_start hcode hp hd start,
    cnv_iff.2 hp, (s.enter .conv).loadCount s.cfg.ldConv, tickRow_of_key _ hp hd, rfl, rfl, fun hvalid => ?_⟩
  obtain ⟨⟨-, -, -, -, -, hconv, -⟩, -⟩ := hvalid
  exact Nat.le_sub_one_of_lt hconv

/-- Settles O8: the loaded count is at least 2 because the read duration is at least 3. -/
theorem convEndEntersRead : Obligations.ConvEndEntersRead := by
  intro s start hp hc
  have hd := countDone_iff.2 hc
  refine ⟨fun hcode => decodeKey_key_of_phase hcode hp hd start, fun hcode => key_and_mask_start hcode hp hd start,
    (s.enter .read).loadCount s.cfg.ldRead, tickRow_of_key _ hp hd, rfl, rfl, rfl, fun hvalid => ?_⟩
  obtain ⟨hadc, -⟩ := hvalid
  exact Nat.le_sub_one_of_lt (three_le_readDuration hadc)

/-- Settles O10: the row rotates once more, which completes the rotations of READ. -/
theorem readEndEntersRtt : Obligations.ReadEndEntersRtt := by
  intro s start hp hc
  have hd := countDone_iff.2 hc
  refine ⟨fun hcode => decodeKey_key_of_phase hcode hp hd start, fun hcode => key_and_mask_start hcode hp hd start,
    sckEn_iff.2 hp, ((s.enter .rtt).loadCount s.cfg.ldRtt).rotateClock, tickRow_of_key _ hp hd, ?_, rfl, rfl,
    fun hvalid hclock => ?_⟩
  · rw [← rotl6_two_eq_append]; rfl
  · obtain ⟨hadc, -⟩ := hvalid
    exact rotl6_clkSr_of_read_end (s := s) hadc hclock hp hc

/-- Settles O12: the row latches what is published from the lane registers as they stand. -/
theorem rttUpdatePublishes : Obligations.RttUpdatePublishes := by
  intro s start hp hc
  have hd := countDone_iff.2 hc
  exact ⟨fun hcode => decodeKey_key_of_phase hcode hp hd start, fun hcode => key_and_mask_start hcode hp hd start,
    update_iff.2 ⟨hp, hc⟩, reading_iff.2 (.inr hp), ((s.enter .idle).loadCount s.cfg.ldZero).latch s.sampleOrdered,
    tickRow_of_key _ hp hd, rfl, rfl, rfl⟩

/-- Settles O28, flag by flag; reset enters IDLE. -/
theorem flagsFollowThePhase : Obligations.FlagsFollowThePhase := fun _ =>
  ⟨countDone_iff, done_iff, cnv_iff, reading_iff, sckEn_iff, update_iff, done_iff.2 rfl⟩

end Sys2Proof.Safety
end

section
/-! The clock register across a tick, the bits of its rotation, and the levels of `sck` (41_clock_synth.md R102, R103). -/

namespace Sys2Proof.Machine

/-- A composed tick rotates `clk_sr` while `sck_en` is 1 and holds it otherwise, whatever it samples (41_clock_synth.md
R102). -/
theorem controllerTick_clkSr {start : Bool} {samples : List (List (Lifted Bool))} {s t : State}
    (h : controllerTick start samples s = .next t) : t.clkSr = nextClkSr s := by
  obtain ⟨p, -, rfl⟩ := controllerTick_eq_next_iff.1 h
  rfl

/-- `rotl6(v, 2)` moves bit `i - 2 (mod 6)` to bit `i`: its two low bits are the two top bits of `v`, and the others are the
four low bits of `v` (41_clock_synth.md R102). -/
theorem rotl6_two_getLsbD (v : BitVec 6) {i : Nat} (hi : i < 6) : (rotl6 v 2).getLsbD i = v.getLsbD ((i + 4) % 6) := by
  rw [rotl6_two_eq_append, BitVec.getLsbD_append, BitVec.getLsbD_extractLsb', BitVec.getLsbD_extractLsb']
  by_cases hlow : i < 2
  · have hsource : (i + 4) % 6 = 4 + i := by omega
    simp only [hlow, hsource, if_true, decide_true, Bool.true_and]
  · have hsource : (i + 4) % 6 = 0 + (i - 2) := by omega
    have hkept : i - 2 < 4 := by omega
    simp only [hlow, hkept, hsource, if_false, decide_true, Bool.true_and]

/-- Under HI_FIRST the first level of `sck` is bit 1 (41_clock_synth.md R103). -/
theorem sck_of_hiFirst {s : State} (h : s.cfg.ddr = .hiFirst) : s.sck = (s.clkSr.getLsbD 1, s.clkSr.getLsbD 0) := by
  rw [State.sck, h, ddrLevels]

/-- Under LO_FIRST the first level of `sck` is bit 0 (41_clock_synth.md R103). -/
theorem sck_of_loFirst {s : State} (h : s.cfg.ddr = .loFirst) : s.sck = (s.clkSr.getLsbD 0, s.clkSr.getLsbD 1) := by
  rw [State.sck, h, ddrLevels]

end Sys2Proof.Machine
end

section
/-! The rotation of the clock register and the levels of `sck` (41_clock_synth.md R102, R103). -/

namespace Sys2Proof.Safety

open Sys2Proof.Machine

/-- Settles O30: the row that the tick selects is the composed tick, which writes `clk_sr` by R102; the bits of the rotation
are a lemma each. -/
theorem rotationKeepsTheRing : Obligations.RotationKeepsTheRing := by
  refine ⟨fun s p start hcode hp => ?_, fun v =>
    ⟨rotl6_two_eq_append v, fun i => rotl6_two_getLsbD v i.isLt, rotl6_two_thrice v⟩⟩
  obtain ⟨i, t, hdec, hexec⟩ := exists_exec_of_legalPhase hcode (legalPhase_iff.2 ⟨p, hp⟩) start
  have htick := controllerTick_of_exec (tickRowStart_of_decodeKey hdec) hexec
  exact ⟨i, t, hdec, hexec, controllerTick_clkSr htick⟩

/-- Settles O31, by the two DDR orders. -/
theorem sckShowsTheLowBits : Obligations.SckShowsTheLowBits :=
  fun _ => ⟨sck_of_hiFirst, sck_of_loFirst⟩

end Sys2Proof.Safety
end

section
/-! One lane across a return edge, by its position and its own level (42_deserializer.md R111). -/

namespace Sys2Proof.Machine

/-- The level of a lane that `sdo` names. -/
theorem laneLevel_of_getElem? {sdo : List Bool} {p : Nat} {level : Bool} (h : sdo[p]? = some level) :
    laneLevel sdo p = level := by
  rw [laneLevel, List.getD_eq_getElem?_getD, h, Option.getD_some]

/-- At a return edge lane `p` shifts in the level that `sdo` has for it (42_deserializer.md R111). -/
theorem shiftLanes_getElem?_of_level {sr : List (List (Lifted Bool))} {sdo : List Bool} {p : Nat}
    {lane : List (Lifted Bool)} {level : Bool} (hlane : sr[p]? = some lane) (hlevel : sdo[p]? = some level) :
    (shiftLanes sr sdo)[p]? = some (shiftLane lane level) := by
  rw [shiftLanes_getElem?, hlane, Option.map_some, laneLevel_of_getElem? hlevel]

/-- The new bit enters at the low end (42_deserializer.md R111). -/
theorem shiftLane_getElem?_zero {lane : List (Lifted Bool)} (level : Bool) (h : 0 < lane.length) :
    (shiftLane lane level)[0]? = some (.val level) :=
  shiftLane_getElem? lane level 0 h

/-- Every other bit comes from the position below it (42_deserializer.md R111). -/
theorem shiftLane_getElem?_succ {lane : List (Lifted Bool)} (level : Bool) {q : Nat} (h : q + 1 < lane.length) :
    (shiftLane lane level)[q + 1]? = lane[q]? :=
  shiftLane_getElem? lane level (q + 1) h

end Sys2Proof.Machine
end

section
/-! The return edge of the deserializer (42_deserializer.md R111). -/

namespace Sys2Proof.Safety

open Sys2Proof.Machine

/-- Settles O15: RET is the return edge, which writes the lanes alone; each lane is then the shift of the lane that stood
there, with its own level. -/
theorem retShiftsEveryLane : Obligations.RetShiftsEveryLane := by
  intro s sdo hlen
  refine ⟨s.returnEdge sdo, exec_ret_of_length hlen, rfl, shiftLanes_length s.sr sdo,
    fun p lane level hlane hlevel => ?_⟩
  exact ⟨shiftLane lane level, shiftLanes_getElem?_of_level hlane hlevel, shiftLane_length lane level,
    shiftLane_getElem?_zero level, fun _ => shiftLane_getElem?_succ level⟩

end Sys2Proof.Safety
end

section
/-! The correction as an operation on words, and the word of one channel after an update tick (43_publisher.md R120, R128,
R130). -/

namespace Sys2Proof.Machine

/-! ## The correction -/

/-- The unsigned number of a corrected word (00_scope.md R10). -/
theorem negW_toNat (w : Word) : (negW w).toNat = (2 ^ w.width - w.toNat) % 2 ^ w.width := BitVec.toNat_ofNat ..

/-- The correction is its own inverse (43_publisher.md R128). -/
theorem negW_negW (w : Word) : negW (negW w) = w := by
  rw [negW_eq_neg, negW_eq_neg, BitVec.neg_neg]

/-- Zero is corrected to itself (43_publisher.md R128). -/
theorem negW_of_toNat_eq_zero {w : Word} (h : w.toNat = 0) : negW w = w := by
  have hbits : w.bits = 0#w.width := BitVec.eq_of_toNat_eq h
  have hneg : -w.bits = w.bits := by rw [hbits, BitVec.neg_zero]
  rw [negW_eq_neg, hneg]

/-- Of the words of at least one bit, the most negative is the only one whose number the correction does not negate
(43_publisher.md R128). -/
theorem negW_toInt {w : Word} (hwidth : 1 ≤ w.width) (hmin : w.toNat ≠ 2 ^ (w.width - 1)) :
    (negW w).toInt = -w.toInt := by
  have hbits : w.bits ≠ BitVec.intMin w.width := fun h => hmin (by
    rw [Word.toNat, h, BitVec.toNat_intMin_of_pos hwidth])
  rw [negW_eq_neg]
  exact BitVec.toInt_neg_of_ne_intMin hbits

/-! ## One channel of an update -/

/-- The word assembled from the bits of a bit vector is that bit vector (43_publisher.md R120). -/
theorem wordOfBits_map_getLsbD {n : Nat} (x : BitVec n) : wordOfBits ((List.range n).map x.getLsbD) = ⟨n, x⟩ := by
  refine word_ext (by simp) fun i => ?_
  rw [wordOfBits_getLsbD]
  by_cases hi : i < n
  · simp [List.getD_eq_getElem?_getD, hi]
  · simp [List.getD_eq_getElem?_getD, hi, BitVec.getLsbD_of_ge x i (Nat.le_of_not_lt hi)]

/-- Raw bits with the value `x` are published as `-x` (43_publisher.md R128, R131). -/
theorem publishWord_rawBits_of_defined {c : Config} {samples : List (List (Lifted Bool))} {ch : Nat}
    {x : BitVec c.adc.width} (h : ∀ b, b < c.adc.width → rawBit c samples ch b = .val (x.getLsbD b)) :
    publishWord (rawBits c samples ch) = .val ⟨c.adc.width, -x⟩ := by
  have hraw : rawBits c samples ch = ((List.range c.adc.width).map x.getLsbD).map .val := by
    rw [rawBits, List.map_map]
    exact List.map_congr_left fun b hb => h b (List.mem_range.1 hb)
  rw [hraw, publishWord_of_defined, wordOfBits_map_getLsbD, negW_eq_neg]

/-- Raw bits of which one is `⊥` are published as `⊥` (43_publisher.md R131). -/
theorem publishWord_rawBits_of_bot {c : Config} {samples : List (List (Lifted Bool))} {ch b : Nat}
    (hb : b < c.adc.width) (h : rawBit c samples ch b = .bot) : publishWord (rawBits c samples ch) = .bot :=
  publishWord_of_bot (List.mem_map.2 ⟨b, List.mem_range.2 hb, h⟩)

/-- After RTT_UPDATE a channel holds what its raw bits are published as (43_publisher.md R130). -/
theorem dataAt_of_exec_rttUpdate {s t : State} {start : Bool} {ch : Nat} (h : exec (.rttUpdate start) s = .next t)
    (hch : ch < s.cfg.adc.channels) : t.dataAt ch = publishWord (rawBits s.cfg s.sr ch) := by
  obtain ⟨-, rfl⟩ := tickRow_eq_next_iff.1 h
  rw [State.dataAt, latch_data, loadCount_cfg, enter_cfg, List.getD_eq_getElem?_getD, published_getElem? _ _ hch]
  rfl

end Sys2Proof.Machine
end

section
/-! The correction of the publisher and the words of an update tick (43_publisher.md R128, R131). -/

namespace Sys2Proof.Safety

open Sys2Proof.Machine

/-- Settles O36: the channel holds what its raw bits are published as, and these are all defined or one is `⊥`. -/
theorem updatePublishesDefinedWords : Obligations.UpdatePublishesDefinedWords := by
  intro s t start ch hexec hch
  rw [dataAt_of_exec_rttUpdate hexec hch]
  exact ⟨fun _ => publishWord_rawBits_of_defined, fun ⟨_, hb, hbot⟩ => publishWord_rawBits_of_bot hb hbot⟩

/-- Settles O33: the correction is the negation of bit vectors, whose laws give each clause. -/
theorem correctionIsNegation : Obligations.CorrectionIsNegation := fun w hwidth =>
  ⟨negW_width w, negW_toNat w, negW_of_toNat_eq_zero, fun _ => negW_toInt hwidth, negW_negW w⟩

end Sys2Proof.Safety
end

section
/-! Construction: the codes that a tuple violates, its two answers, and the block that a legal tuple names (60_exceptions.md
R136, R137). -/

namespace Sys2Proof.Machine

open Sys2Proof.Safety

/-- A check contributes its own code, and only when it fails. -/
@[simp] theorem mem_codeIf {fails : Bool} {code e : ConfigError} : e ∈ codeIf fails code ↔ fails = true ∧ e = code := by
  cases fails <;> simp [codeIf]

/-- The reported codes are exactly the violated ones; the check of E_DIVIDE takes a remainder where the condition speaks of
divisibility (60_exceptions.md R136). -/
theorem mem_violations_iff {t : AdcTuple} {e : ConfigError} : e ∈ violations t ↔ violates t e := by
  cases e
  case eDivide => rw [violates, Int.dvd_iff_emod_eq_zero]; simp [violations]
  all_goals simp [violations, violates]

/-- No code is reported exactly when no condition is violated. -/
theorem violations_eq_nil_iff_forall_not_violates {t : AdcTuple} : violations t = [] ↔ ∀ e, ¬ violates t e := by
  simp only [List.eq_nil_iff_forall_not_mem, mem_violations_iff]

/-- A tuple without a violated condition is built. -/
theorem construct_of_violations_eq_nil {t : AdcTuple} (h : violations t = []) :
    construct t = .ok (State.powerOn { adc := adcOfTuple t }) := if_pos h

/-- A tuple with a violated condition is refused with every reported code (60_exceptions.md R137). -/
theorem construct_of_violations_ne_nil {t : AdcTuple} (h : violations t ≠ []) : construct t = .error (violations t) :=
  if_neg h

/-- The parameters of a legal tuple name that tuple: its integers are positive, so none is lost as a natural number. -/
theorem adcTuple_adcOfTuple {t : AdcTuple} (h : violations t = []) : adcTuple (adcOfTuple t) = t := by
  cases t
  simp only [violations_eq_nil_iff] at h
  simp only [adcTuple, adcOfTuple, AdcTuple.mk.injEq]
  omega

/-- The parameters of a legal tuple are valid (00_scope.md R7). -/
theorem adcValid_adcOfTuple {t : AdcTuple} (h : violations t = []) : AdcValid (adcOfTuple t) := by
  rw [← violations_adcTuple, adcTuple_adcOfTuple h]
  exact h

end Sys2Proof.Machine
end

section
/-! The verdict of construction (60_exceptions.md R136, R137). -/

namespace Sys2Proof.Safety

open Sys2Proof.Machine

/-- Settles O38, by the two answers of construction: the reported codes are the violated ones, so which answer it gives is
whether a condition is violated. -/
theorem constructionVerdict : Obligations.ConstructionVerdict := by
  refine fun t => ⟨fun hlegal => ?_, fun ⟨e, he⟩ => ?_⟩
  · have hnil := violations_eq_nil_iff_forall_not_violates.2 hlegal
    exact ⟨construct_of_violations_eq_nil hnil, adcValid_adcOfTuple hnil, adcTuple_adcOfTuple hnil⟩
  · have hne : violations t ≠ [] := List.ne_nil_of_mem (mem_violations_iff.2 he)
    exact ⟨violations t, construct_of_violations_ne_nil hne, fun _ => mem_violations_iff⟩

end Sys2Proof.Safety
end

section
/-! RST in every state and what the power-on state shows (70_reset_and_hazards.md R150, R152, 10_state.md R34). -/

namespace Sys2Proof.Machine

/-- RST applies in every state, and is the register writes of the reset (70_reset_and_hazards.md R150, R151). -/
theorem exec_rst (s : State) : exec .rst s = .next s.resetRegisters := rfl

/-- A key with `rst = 1` selects RST, whatever the registers and `start` hold (70_reset_and_hazards.md R151). -/
theorem decodeKey_key_rst (s : State) (start : Bool) : decodeKey s.cfg.phaseCode (s.key true start) = .ok .rst :=
  decodeKey_rst s.cfg.phaseCode (phaseRegCode s.cfg.phaseCode s.phase) start s.countDone

/-- The default SEED starts with two low levels under either DDR order: both its low bits are 0 (41_clock_synth.md R103). -/
theorem ddrLevels_defaultSeed (order : DdrOrder) : ddrLevels order 0b111000#6 = (false, false) := by
  cases order with
  | hiFirst => rfl
  | loFirst => rfl

/-- The power-on state shows an IDLE cycle, the levels of SEED, and no value on the data ports (10_state.md R34). -/
theorem outputs_powerOn (c : Config) :
    (State.powerOn c).outputs =
      { done := true, reading := false, cnv := false, sck := ddrLevels c.ddr c.seed,
        data := List.replicate c.adc.channels .bot } := by
  obtain ⟨hdone, hcnv, hreading, -, -⟩ := flags_of_idle (powerOn_phase c)
  rw [State.outputs, hdone, hreading, hcnv, State.sck, powerOn_cfg, powerOn_clkSr, powerOn_data]

end Sys2Proof.Machine
end

section
/-! Reset and power-on (70_reset_and_hazards.md R150 to R152). -/

namespace Sys2Proof.Safety

open Sys2Proof.Machine

/-- Settles O13: the state after RST is in IDLE, and a COINC with `rst = 1` is a RST. -/
theorem rstWritesEveryRegister : Obligations.RstWritesEveryRegister := by
  intro s
  obtain ⟨hdone, hcnv, hreading, hupdate, hsck⟩ := flags_of_idle (resetRegisters_phase s)
  exact ⟨decodeKey_key_rst s, s.resetRegisters, rfl, exec_rst s, hdone, hcnv, hreading, hsck, hupdate,
    fun start sdo hlen => (exec_coinc_rst_of_length start hlen).trans (exec_rst s)⟩

/-- Settles O14: RST leaves the power-on state, whose outputs are those of IDLE with SEED. -/
theorem powerOnIsTheStateAfterRst : Obligations.PowerOnIsTheStateAfterRst := by
  refine fun s => ⟨?_, rfl, outputs_powerOn s.cfg, fun hseed => ?_⟩
  · rw [exec_rst, resetRegisters_eq_powerOn]
  · rw [State.sck, powerOn_cfg, powerOn_clkSr, hseed]
    exact ddrLevels_defaultSeed s.cfg.ddr

end Sys2Proof.Safety
end

section
/-! One operation as a function of the state, and a step as that function of the next operation of the trace (20_memory.md
R47). -/

namespace Sys2Proof.Machine

open Sys2Proof.Safety

/-! ## The meaning of an operation -/

/-- What an operation does, without its word and its decoding: `step_eq_runOp` says that a step of a block does this. -/
def runOp : Op → State → StepResult
  | .tick start, s => controllerTick start s.sampleOrdered s
  | .rst, s => .next s.resetRegisters
  | .ret sdo, s => .next (s.returnEdge sdo)
  | .coinc true _ _, s => .next s.resetRegisters
  | .coinc false start sdo, s => coincTick start sdo s

/-- The word of a key that selects an instruction decodes to it (30_encoding.md R57). -/
theorem decode_keyWord_of_ok {code : PhaseCode} {key : BitVec 6} {i : Instr} (h : decodeKey code key = .ok i) (lanes : Nat)
    (after : List Byte) : decode code lanes (keyWord key ++ after) = .ok (i, after) := by
  rw [decode_keyWord, h]

/-- The `PHASE_CODE` of a block is injective (30_encoding.md R65). -/
theorem phaseCodeOk_of_configValid {c : Config} (h : ConfigValid c) : phaseCodeOk c.phaseCode = true := by
  obtain ⟨-, -, -, hcode, -⟩ := h
  exact hcode

/-- In an unused phase code a tick's key selects no row (30_encoding.md R61). -/
theorem decodeKey_key_of_unused {s : State} {c : Fin 3} (hcode : phaseCodeOk s.cfg.phaseCode = true)
    (hp : s.phase = .unused c) (start : Bool) :
    decodeKey s.cfg.phaseCode (s.key false start) = .error .phaseIllegal := by
  rw [State.key, hp]
  exact decodeKey_of_no_phase (phaseRegCode_unused_ne hcode c) start s.countDone

/-- The composed tick in an unused phase code is the fault of the spec (30_encoding.md R61). -/
theorem controllerTick_of_unused {s : State} {c : Fin 3} (hp : s.phase = .unused c) (start : Bool)
    (samples : List (List (Lifted Bool))) : controllerTick start samples s = .fault .phaseIllegal := by
  rw [controllerTick, hp]

/-- A row that a tick selects is the composed tick on the lanes as they stand (40_controller.md R73). -/
theorem exec_selectedRow_of_phase {s : State} {p : Phase} (hp : s.phase = .named p) (start : Bool) :
    exec (selectedRow p start s.countDone) s = controllerTick start s.sampleOrdered s := by
  rw [exec_selectedRow, tickRow_of_key _ hp rfl, controllerTick_of_key start s.sampleOrdered hp rfl]

/-! ## The fetch -/

/-- Without a block there is no step (30_encoding.md R62). -/
theorem step_of_configRefusal {s : State} {r : Refusal} (h : configRefusal s.cfg = some r) : step s = .refused r := by
  rw [step, fetch, h]

/-- Without an operation there is no step. -/
theorem step_of_trace_nil {s : State} (hc : ConfigValid s.cfg) (ht : s.trace = []) : step s = .refused .noOperation := by
  rw [step, fetch, (configRefusal_eq_none_iff _).2 hc, ht]

/-- An operation of another block is refused by name (30_encoding.md R59). -/
theorem step_of_not_wellFormed {s : State} {op : Op} {rest : List Op} (hc : ConfigValid s.cfg) (ht : s.trace = op :: rest)
    (hw : op.wellFormed s.cfg.adc.lanes = false) : step s = .refused .laneCount := by
  simp [step, fetch, (configRefusal_eq_none_iff _).2 hc, ht, hw]

/-- A step whose operation's word decodes to an instruction runs that instruction. -/
theorem step_of_decode {s : State} {op : Op} {rest : List Op} {i : Instr} {after : List Byte} (hc : ConfigValid s.cfg)
    (ht : s.trace = op :: rest) (hw : op.wellFormed s.cfg.adc.lanes = true)
    (hd : decode s.cfg.phaseCode s.cfg.adc.lanes (operationWord s op) = .ok (i, after)) :
    step s = exec i (s.consume rest) := by
  rw [step, fetch_of_decode hc ht hw hd]

/-- A tick whose key names no phase is stepped to the fault of the spec (30_encoding.md R61). -/
theorem step_tick_of_unused {s : State} {c : Fin 3} {start : Bool} {rest : List Op} (hc : ConfigValid s.cfg)
    (ht : s.trace = .tick start :: rest) (hp : s.phase = .unused c) : step s = .fault .phaseIllegal := by
  have hword := decode_keyWord s.cfg.phaseCode s.cfg.adc.lanes (s.key false start) []
  rw [List.append_nil, decodeKey_key_of_unused (phaseCodeOk_of_configValid hc) hp] at hword
  simp [step, fetch, (configRefusal_eq_none_iff _).2 hc, ht, Op.wellFormed, operationWord, hword]

/-! ## A step is its operation -/

/-- A step of a tick is the composed tick, or the fault in an unused phase code (40_controller.md R73, 30_encoding.md R61). -/
theorem step_tick {s : State} {start : Bool} {rest : List Op} (hc : ConfigValid s.cfg)
    (ht : s.trace = .tick start :: rest) : step s = runOp (.tick start) (s.consume rest) := by
  cases hp : s.phase with
  | named p =>
    have hkey := decodeKey_key_of_phase (phaseCodeOk_of_configValid hc) hp rfl start
    rw [step_of_decode hc ht rfl (decode_keyWord_of_ok hkey s.cfg.adc.lanes [])]
    exact exec_selectedRow_of_phase (s := s.consume rest) hp start
  | unused c =>
    rw [step_tick_of_unused hc ht hp]
    exact (controllerTick_of_unused (s := s.consume rest) hp start _).symm

/-- A step of an operation of the block does what the operation does (20_memory.md R47). -/
theorem step_eq_runOp {s : State} {op : Op} {rest : List Op} (hc : ConfigValid s.cfg) (ht : s.trace = op :: rest)
    (hw : op.wellFormed s.cfg.adc.lanes = true) : step s = runOp op (s.consume rest) := by
  cases op with
  | tick start => exact step_tick hc ht
  | rst => exact step_of_decode hc ht hw (decode_keyWord_of_ok (decodeKey_key_rst s false) s.cfg.adc.lanes [])
  | ret sdo =>
    have hlen : sdo.length = s.cfg.adc.lanes := eq_of_beq hw
    have hword := decode_retWord s.cfg.phaseCode [] hlen
    rw [List.append_nil] at hword
    rw [step_of_decode hc ht hw hword]
    exact exec_ret_of_length hlen
  | coinc rst start sdo =>
    have hlen : sdo.length = s.cfg.adc.lanes := eq_of_beq hw
    have hword := decode_coincWord s.cfg.phaseCode rst start [] hlen
    rw [List.append_nil] at hword
    rw [step_of_decode hc ht hw hword]
    cases rst with
    | true => exact withSdo_of_length _ hlen
    | false => exact withSdo_of_length _ hlen

/-- All that a step can do: the next operation of a block, which is one of that block. -/
theorem step_eq_next_iff {s t : State} :
    step s = .next t ↔
      ConfigValid s.cfg ∧ ∃ op rest, s.trace = op :: rest ∧ op.wellFormed s.cfg.adc.lanes = true
        ∧ runOp op (s.consume rest) = .next t := by
  constructor
  · intro h
    have hc : ConfigValid s.cfg := by
      refine (configRefusal_eq_none_iff _).1 (Option.eq_none_iff_forall_ne_some.2 fun r hr => ?_)
      cases (step_of_configRefusal hr).symm.trans h
    cases ht : s.trace with
    | nil => cases (step_of_trace_nil hc ht).symm.trans h
    | cons op rest =>
      obtain ⟨hw, -⟩ := step_eq_next_cases ht h
      exact ⟨hc, op, rest, rfl, hw, (step_eq_runOp hc ht hw).symm.trans h⟩
  · rintro ⟨hc, op, rest, ht, hw, h⟩
    exact (step_eq_runOp hc ht hw).trans h

/-- What an operation leaves as it is: the configuration and the operations still to come. -/
theorem runOp_frame {op : Op} {s t : State} (h : runOp op s = .next t) : t.cfg = s.cfg ∧ t.trace = s.trace := by
  cases op with
  | tick start =>
    obtain ⟨hcfg, -, htrace, -⟩ := controllerTick_frame h
    exact ⟨hcfg, htrace⟩
  | rst => cases h; exact ⟨rfl, rfl⟩
  | ret sdo => cases h; exact ⟨rfl, rfl⟩
  | coinc rst start sdo =>
    cases rst with
    | true => cases h; exact ⟨rfl, rfl⟩
    | false =>
      obtain ⟨u, hu, rfl⟩ := coincTick_eq_next_iff.1 h
      obtain ⟨hcfg, -, htrace, -⟩ := controllerTick_frame hu
      exact ⟨hcfg, htrace⟩

end Sys2Proof.Machine
end

section
/-! What an operation can do to the registers, and runs of operations (20_memory.md R47). -/

namespace Sys2Proof.Machine

open Sys2Proof.Safety

/-! ## What an operation can do -/

/-- The lane registers after an operation's return edge, if it has one (42_deserializer.md R111). -/
def lanesAfter (op : Op) (sr : List (List (Lifted Bool))) : List (List (Lifted Bool)) :=
  match edgeLevels op with
  | none => sr
  | some sdo => shiftLanes sr sdo

/-- All that an operation can do: reset every register, shift the lanes alone, or be a composed tick beside what its return
edge does to the lanes (20_memory.md R47, R48). -/
theorem runOp_eq_next_cases {op : Op} {s t : State} (h : runOp op s = .next t) :
    (isReset op = true ∧ t = s.resetRegisters)
      ∨ (isReset op = false ∧ tickStart op = none ∧ t = { s with sr := lanesAfter op s.sr })
      ∨ (isReset op = false ∧ ∃ start samples u, tickStart op = some start
          ∧ controllerTick start samples s = .next u ∧ t = { u with sr := lanesAfter op s.sr }) := by
  cases op with
  | tick start =>
    obtain ⟨-, hsr, -⟩ := controllerTick_frame h
    refine .inr (.inr ⟨rfl, start, s.sampleOrdered, t, rfl, h, ?_⟩)
    rw [lanesAfter, edgeLevels, ← hsr]
  | rst => cases h; exact .inl ⟨rfl, rfl⟩
  | ret sdo => cases h; exact .inr (.inl ⟨rfl, rfl, rfl⟩)
  | coinc rst start sdo =>
    cases rst with
    | true => cases h; exact .inl ⟨rfl, rfl⟩
    | false =>
      obtain ⟨u, hu, rfl⟩ := coincTick_eq_next_iff.1 h
      exact .inr (.inr ⟨rfl, start, s.sampleCoincident, u, rfl, hu, rfl⟩)

/-- In a legal phase the composed tick answers a next state. -/
theorem exists_controllerTick {s : State} (hlegal : legalPhase s.phase = true) (start : Bool)
    (samples : List (List (Lifted Bool))) : ∃ t, controllerTick start samples s = .next t := by
  obtain ⟨p, hp⟩ := legalPhase_iff.1 hlegal
  exact ⟨_, controllerTick_of_key start samples hp rfl⟩

/-- In a legal phase every operation answers a next state (60_exceptions.md R135). -/
theorem exists_runOp {s : State} (hlegal : legalPhase s.phase = true) (op : Op) : ∃ t, runOp op s = .next t := by
  cases op with
  | tick start => exact exists_controllerTick hlegal start _
  | rst => exact ⟨_, rfl⟩
  | ret sdo => exact ⟨_, rfl⟩
  | coinc rst start sdo =>
    cases rst with
    | true => exact ⟨_, rfl⟩
    | false =>
      obtain ⟨u, hu⟩ := exists_controllerTick hlegal start s.sampleCoincident
      exact ⟨_, coincTick_eq_next_iff.2 ⟨u, hu, rfl⟩⟩

/-- No operation writes an unused phase code (30_encoding.md R61). -/
theorem legalPhase_of_runOp {op : Op} {s t : State} (h : runOp op s = .next t) (hlegal : legalPhase s.phase = true) :
    legalPhase t.phase = true := by
  obtain ⟨-, rfl⟩ | ⟨-, -, rfl⟩ | ⟨-, start, samples, u, -, hu, rfl⟩ := runOp_eq_next_cases h
  · rfl
  · exact hlegal
  · obtain ⟨p, -, rfl⟩ := controllerTick_eq_next_iff.1 hu
    rfl

/-- No operation reads the operations after it. -/
theorem runOp_consume {op : Op} {s t : State} (h : runOp op s = .next t) (rest : List Op) :
    runOp op (s.consume rest) = .next (t.consume rest) := by
  cases op with
  | tick start =>
    obtain ⟨p, hp, rfl⟩ := controllerTick_eq_next_iff.1 h
    exact controllerTick_eq_next_iff.2 ⟨p, hp, rfl⟩
  | rst => cases h; rfl
  | ret sdo => cases h; rfl
  | coinc rst start sdo =>
    cases rst with
    | true => cases h; rfl
    | false =>
      obtain ⟨u, hu, rfl⟩ := coincTick_eq_next_iff.1 h
      obtain ⟨p, hp, rfl⟩ := controllerTick_eq_next_iff.1 hu
      exact coincTick_eq_next_iff.2 ⟨_, controllerTick_eq_next_iff.2 ⟨p, hp, rfl⟩, rfl⟩

/-! ## Runs -/

/-- A run of no operation. -/
theorem runOps_nil (s : State) : runOps [] s = .next (s.consume []) := rfl

/-- A result, and what follows when it is a next state. -/
def andThen (r : StepResult) (f : State → StepResult) : StepResult :=
  match r with
  | .next t => f t
  | .fault e => .fault e
  | .refused e => .refused e

/-- Two results in a row answer a next state exactly when both do. -/
theorem andThen_eq_next_iff {r : StepResult} {f : State → StepResult} {t : State} :
    andThen r f = .next t ↔ ∃ u, r = .next u ∧ f u = .next t := by
  cases r <;> simp [andThen]

/-- A step takes one operation from the trace. -/
theorem trace_of_step {op : Op} {ops : List Op} {s t : State} (h : step (s.consume (op :: ops)) = .next t) :
    t.trace = ops := by
  obtain ⟨-, _, _, htrace, -, hop⟩ := step_eq_next_iff.1 h
  cases htrace
  exact (runOp_frame hop).2

/-- A machine's run of one step more is that step and what follows. -/
theorem coreRun_succ {M : Host.Core} (k : Nat) (x : M.State) :
    (∀ y, M.step x = .next y → M.run (k + 1) x = M.run k y)
      ∧ (∀ e, M.step x = .fault e → M.run (k + 1) x = .fault e)
      ∧ ∀ e, M.step x = .refused e → M.run (k + 1) x = .refused e := by
  refine ⟨fun y h => ?_, fun e h => ?_, fun e h => ?_⟩ <;> rw [Host.Core.run, h]

/-- A run is its first step and the run of the operations after it. -/
theorem runOps_cons_eq_andThen (op : Op) (ops : List Op) (s : State) :
    runOps (op :: ops) s = andThen (step (s.consume (op :: ops))) (runOps ops) := by
  obtain ⟨hnext, hfault, hrefused⟩ := coreRun_succ (M := core) ops.length (s.consume (op :: ops))
  cases hs : step (s.consume (op :: ops)) with
  | next u =>
    have hu : u.consume ops = u := congrArg u.consume (trace_of_step hs).symm
    exact (hnext u hs).trans (congrArg (Host.Core.run core ops.length) hu.symm)
  | fault e => exact hfault e hs
  | refused e => exact hrefused e hs

/-- What the run of a nonempty trace can do: its first operation, one of the block, and the run after it. -/
theorem runOps_cons_eq_next_iff {op : Op} {ops : List Op} {s t : State} :
    runOps (op :: ops) s = .next t ↔
      ConfigValid s.cfg ∧ op.wellFormed s.cfg.adc.lanes = true ∧ ∃ u, runOp op s = .next u ∧ runOps ops u = .next t := by
  rw [runOps_cons_eq_andThen, andThen_eq_next_iff]
  constructor
  · rintro ⟨v, hs, hrun⟩
    obtain ⟨hc, _, _, htrace, hw, hop⟩ := step_eq_next_iff.1 hs
    cases htrace
    exact ⟨hc, hw, v.consume s.trace, runOp_consume hop s.trace, hrun⟩
  · rintro ⟨hc, hw, u, hop, hrun⟩
    exact ⟨u.consume ops, step_eq_next_iff.2 ⟨hc, op, ops, rfl, hw, runOp_consume hop ops⟩, hrun⟩

/-- A run of two traces, one after the other. -/
theorem runOps_append {ops : List Op} (more : List Op) {s t : State} (h : runOps ops s = .next t) {u : State}
    (hmore : runOps more t = .next u) : runOps (ops ++ more) s = .next u := by
  induction ops generalizing s with
  | nil => cases h; exact hmore
  | cons op ops ih =>
    obtain ⟨hc, hw, v, hop, hrun⟩ := runOps_cons_eq_next_iff.1 h
    exact runOps_cons_eq_next_iff.2 ⟨hc, hw, v, hop, ih hrun⟩

/-- What every operation of a block keeps, and what does not depend on the operations to come, a run keeps. -/
theorem runOps_keeps {P : State → Prop} (hconsume : ∀ s rest, P s → P (s.consume rest))
    (hop : ∀ op s t, ConfigValid s.cfg → runOp op s = .next t → P s → P t) {ops : List Op} {s t : State}
    (h : runOps ops s = .next t) (hs : P s) : P t := by
  induction ops generalizing s with
  | nil => cases h; exact hconsume s [] hs
  | cons op ops ih =>
    obtain ⟨hc, -, u, hu, hrun⟩ := runOps_cons_eq_next_iff.1 h
    exact ih hrun (hop op s u hc hu hs)

/-- A run ends with no operation left. -/
theorem trace_of_runOps {ops : List Op} {s t : State} (h : runOps ops s = .next t) : t.trace = [] := by
  induction ops generalizing s with
  | nil => cases h; rfl
  | cons op ops ih =>
    obtain ⟨-, -, u, -, hrun⟩ := runOps_cons_eq_next_iff.1 h
    exact ih hrun

/-- A run keeps the configuration (10_state.md R31). -/
theorem cfg_of_runOps {ops : List Op} {s t : State} (h : runOps ops s = .next t) : t.cfg = s.cfg :=
  runOps_keeps (P := fun u => u.cfg = s.cfg) (fun _ _ hu => hu) (fun _ _ _ _ hop hu => (runOp_frame hop).1.trans hu) h rfl

/-- In a legal phase a run of a block's operations reaches its end (60_exceptions.md R135). -/
theorem exists_runOps {ops : List Op} {s : State} (hc : ConfigValid s.cfg) (hlegal : legalPhase s.phase = true)
    (hw : ∀ op ∈ ops, op.wellFormed s.cfg.adc.lanes = true) : ∃ t, runOps ops s = .next t := by
  induction ops generalizing s with
  | nil => exact ⟨_, runOps_nil s⟩
  | cons op ops ih =>
    obtain ⟨u, hu⟩ := exists_runOp hlegal op
    obtain ⟨hcfg, -⟩ := runOp_frame hu
    obtain ⟨t, ht⟩ := ih (hcfg ▸ hc) (legalPhase_of_runOp hu hlegal) fun o ho => hcfg ▸ hw o (List.mem_cons_of_mem _ ho)
    exact ⟨t, runOps_cons_eq_next_iff.2 ⟨hc, hw op List.mem_cons_self, u, hu, ht⟩⟩

end Sys2Proof.Machine
end

section
/-! What every operation keeps: the shape of the registers, the range of the sequencer, the phase of the clock register and
IDLE at zero (10_state.md R20, 40_controller.md R95, R96, 41_clock_synth.md R105). -/

namespace Sys2Proof.Machine

open Sys2Proof.Safety

/-! ## Shape -/

/-- A return edge keeps the number and the depth of the lanes, and its absence does (42_deserializer.md R111). -/
theorem lanesAfter_shape {op : Op} {sr : List (List (Lifted Bool))} {d : Nat} (h : ∀ lane ∈ sr, lane.length = d) :
    (lanesAfter op sr).length = sr.length ∧ ∀ lane ∈ lanesAfter op sr, lane.length = d := by
  cases he : edgeLevels op with
  | none => rw [lanesAfter, he]; exact ⟨rfl, h⟩
  | some sdo => rw [lanesAfter, he]; exact ⟨shiftLanes_length sr sdo, shiftLanes_depth h⟩

/-- The words of a publication are `⊥` or of the block's width (43_publisher.md R131). -/
theorem contentFits_published (c : Config) (samples : List (List (Lifted Bool))) :
    ∀ w ∈ published c samples, contentFits c.adc.width w = true := by
  intro w hw
  obtain ⟨ch, -, rfl⟩ := List.mem_map.1 hw
  cases hp : publishWord (rawBits c samples ch) with
  | bot => rfl
  | val v => simp [contentFits, publishWord_width hp]

/-- Other lane registers of the same shape leave a state well shaped. -/
theorem wellShaped_with_lanesAfter {s : State} (op : Op) (h : WellShaped s) :
    WellShaped { s with sr := lanesAfter op s.sr } := by
  obtain ⟨hlanes, hdepth, hdata⟩ := h
  obtain ⟨hcount, hdepth'⟩ := lanesAfter_shape (op := op) hdepth
  exact ⟨hcount.trans hlanes, hdepth', hdata⟩

/-- The registers after power-on are well shaped (10_state.md R34). -/
theorem wellShaped_powerOn (c : Config) : WellShaped (State.powerOn c) := by
  refine ⟨List.length_replicate, fun lane hl => ?_, List.length_replicate, fun w hw => ?_⟩
  · rw [List.eq_of_mem_replicate hl]; exact List.length_replicate
  · rw [List.eq_of_mem_replicate hw]; rfl

/-- The composed tick keeps the shape: what it publishes are C contents of W bits (43_publisher.md R120). -/
theorem wellShaped_of_controllerTick {start : Bool} {samples : List (List (Lifted Bool))} {s t : State}
    (h : controllerTick start samples s = .next t) (hs : WellShaped s) : WellShaped t := by
  obtain ⟨p, -, rfl⟩ := controllerTick_eq_next_iff.1 h
  obtain ⟨hlanes, hdepth, hwords, hwidths⟩ := hs
  refine ⟨hlanes, hdepth, ?_⟩
  cases hu : s.update with
  | true => simpa [nextData, hu] using contentFits_published s.cfg samples
  | false => simpa [nextData, hu] using And.intro hwords hwidths

/-- Every operation keeps the shape of the registers (10_state.md R20). -/
theorem wellShaped_of_runOp {op : Op} {s t : State} (h : runOp op s = .next t) (hs : WellShaped s) : WellShaped t := by
  obtain ⟨-, rfl⟩ | ⟨-, -, rfl⟩ | ⟨-, start, samples, u, -, hu, rfl⟩ := runOp_eq_next_cases h
  · exact wellShaped_powerOn s.cfg
  · exact wellShaped_with_lanesAfter op hs
  · obtain ⟨-, hsr, -⟩ := controllerTick_frame hu
    rw [← hsr]
    exact wellShaped_with_lanesAfter op (wellShaped_of_controllerTick hu hs)

/-! ## The sequencer -/

/-- Every operation keeps the counter in its range: a load gives at most `T_MAX` and every other tick counts down
(40_controller.md R96). -/
theorem sequencerBounded_of_runOp {op : Op} {s t : State} (h : runOp op s = .next t) (hs : SequencerBounded s) :
    SequencerBounded t := by
  obtain ⟨hlegal, hcount⟩ := hs
  refine ⟨legalPhase_of_runOp h hlegal, ?_⟩
  obtain ⟨-, rfl⟩ | ⟨-, -, rfl⟩ | ⟨-, start, samples, u, -, hu, rfl⟩ := runOp_eq_next_cases h
  · exact le_max_right _ _
  · exact hcount
  · obtain ⟨p, -, rfl⟩ := controllerTick_eq_next_iff.1 hu
    change nextCount s p start ≤ s.cfg.countMax
    have hload : countLoad s.cfg p start ≤ s.cfg.countMax := (countLoad_le_tMax s.cfg p start).trans (le_max_left _ _)
    unfold nextCount
    split <;> omega

/-- A counter in its range fits the register: a given width holds the range, and the default width holds it when the reset
value is no more than `T_MAX` (40_controller.md R96, notes/assumptions/6.md). -/
theorem countMax_lt_two_pow_counterBits {c : Config} (hok : counterWidthOk c = true)
    (h : c.counterWidth ≠ .fitted ∨ c.countReset ≤ c.tMax) : c.countMax < 2 ^ c.counterBits := by
  cases hw : c.counterWidth with
  | fitted =>
    have hreset : c.countReset ≤ c.tMax := h.resolve_left (not_not_intro hw)
    rw [Config.countMax, max_eq_left hreset]
    exact tMax_lt_two_pow_counterBits hok
  | bits n => simpa [counterWidthOk, Config.counterBits, hw] using hok

/-! ## The clock register -/

/-- Rotations by the same places modulo 6 are the same. -/
theorem rotl6_congr {m n : Nat} (v : BitVec 6) (h : m % 6 = n % 6) : rotl6 v m = rotl6 v n := by
  rw [rotl6, rotl6, h]

/-- The rotation of READ cycle `j` is that of cycle `j + 1` after one tick (41_clock_synth.md R105). -/
theorem rotl6_cycle_succ (v : BitVec 6) (j : Nat) : rotl6 (rotl6 v (2 * (j % 3))) 2 = rotl6 v (2 * ((j + 1) % 3)) := by
  rw [rotl6_two_add]
  exact rotl6_congr v (by omega)

/-- READ is entered only from CONV, at its last tick (40_controller.md R81). -/
theorem nextPhase_eq_read {p : Phase} {start done : Bool} (hp : p ≠ .read) (h : nextPhase p start done = .read) :
    p = .conv ∧ done = true := by
  cases p with
  | idle => cases start <;> cases h
  | cnvh => cases done <;> cases h
  | conv => cases done with
    | true => exact ⟨rfl, rfl⟩
    | false => cases h
  | read => exact absurd rfl hp
  | rtt => cases done <;> cases h

/-- A tick outside READ holds SEED, and READ is entered with `R - 1` and no rotation done (41_clock_synth.md R105). -/
theorem clockPhase_of_tick_outside_read {s : State} {p : Phase} (start : Bool) (samples : List (List (Lifted Bool)))
    (hadc : AdcValid s.cfg.adc) (hp : p ≠ .read) (hclk : s.clkSr = s.cfg.seed) :
    ClockPhase (s.afterTick p s.countDone start samples) := by
  have hheld : (s.afterTick p s.countDone start samples).clkSr = s.cfg.seed := by simp [State.afterTick, hp, hclk]
  refine ⟨fun _ => hheld, fun hread => ?_⟩
  obtain ⟨rfl, hdone⟩ := nextPhase_eq_read hp (PhaseReg.named.inj hread)
  have hcount : (s.afterTick .conv s.countDone start samples).count = s.cfg.readDuration - 1 := by
    rw [hdone]; rfl
  have hpos := three_le_readDuration hadc
  refine ⟨?_, ?_⟩
  · rw [hcount]; exact Nat.sub_one_lt (by omega)
  · rw [hheld, hcount]
    change s.cfg.seed = rotl6 s.cfg.seed (2 * ((s.cfg.readDuration - 1 - (s.cfg.readDuration - 1)) % 3))
    rw [Nat.sub_self]
    exact (rotl6_of_mod s.cfg.seed rfl).symm

/-- A tick of READ counts down and rotates, and the last one completes the turn (41_clock_synth.md R105). -/
theorem clockPhase_of_tick_in_read {s : State} (start : Bool) (samples : List (List (Lifted Bool)))
    (hadc : AdcValid s.cfg.adc) (hp : s.phase = .named .read) (hs : ClockPhase s) :
    ClockPhase (s.afterTick .read s.countDone start samples) := by
  cases hd : s.countDone with
  | true => exact ⟨fun _ => rotl6_clkSr_of_read_end hadc hs hp (countDone_iff.1 hd), nofun⟩
  | false =>
    obtain ⟨-, hin⟩ := hs
    obtain ⟨hlt, hclk⟩ := hin hp
    have hne := countDone_false_iff.1 hd
    have hcycle : s.cfg.readDuration - 1 - (s.count - 1) = s.cfg.readDuration - 1 - s.count + 1 := by omega
    refine ⟨fun hout => absurd rfl hout, fun _ => ⟨(Nat.sub_le _ _).trans_lt hlt, ?_⟩⟩
    change rotl6 s.clkSr 2 = rotl6 s.cfg.seed (2 * ((s.cfg.readDuration - 1 - (s.count - 1)) % 3))
    rw [hcycle, hclk]
    exact rotl6_cycle_succ _ _

/-- A composed tick keeps the phase invariant of the clock register (41_clock_synth.md R105). -/
theorem clockPhase_of_controllerTick {start : Bool} {samples : List (List (Lifted Bool))} {s t : State}
    (hadc : AdcValid s.cfg.adc) (h : controllerTick start samples s = .next t) (hs : ClockPhase s) : ClockPhase t := by
  obtain ⟨p, hp, -⟩ := controllerTick_eq_next_iff.1 h
  cases (controllerTick_of_key start samples hp rfl).symm.trans h
  by_cases hread : p = .read
  · subst hread
    exact clockPhase_of_tick_in_read start samples hadc hp hs
  · obtain ⟨hout, -⟩ := hs
    exact clockPhase_of_tick_outside_read start samples hadc hread (hout (by simpa [hp] using hread))

/-- Every operation of a block keeps the phase invariant of the clock register (41_clock_synth.md R105). -/
theorem clockPhase_of_runOp {op : Op} {s t : State} (hadc : AdcValid s.cfg.adc) (h : runOp op s = .next t)
    (hs : ClockPhase s) : ClockPhase t := by
  obtain ⟨-, rfl⟩ | ⟨-, -, rfl⟩ | ⟨-, start, samples, u, -, hu, rfl⟩ := runOp_eq_next_cases h
  · exact ⟨fun _ => rfl, nofun⟩
  · exact hs
  · exact clockPhase_of_controllerTick (t := u) hadc hu hs

/-! ## IDLE at zero -/

/-- A tick that leads to IDLE comes from IDLE, or from RTT at its last tick (40_controller.md R74, R75, R85). -/
theorem nextPhase_eq_idle {p : Phase} {start done : Bool} (h : nextPhase p start done = .idle) :
    p = .idle ∧ start = false ∨ p = .rtt ∧ done = true := by
  cases p with
  | idle => cases start with
    | true => cases h
    | false => exact .inl ⟨rfl, rfl⟩
  | cnvh => cases done <;> cases h
  | conv => cases done <;> cases h
  | read => cases done <;> cases h
  | rtt => cases done with
    | true => exact .inr ⟨rfl, rfl⟩
    | false => cases h

/-- A composed tick keeps `IDLE implies count = 0`: what stays in IDLE stays at 0, and RTT leaves for IDLE with a load of 0
(40_controller.md R95). -/
theorem idleAtZero_of_controllerTick {start : Bool} {samples : List (List (Lifted Bool))} {s t : State}
    (h : controllerTick start samples s = .next t) (hs : IdleAtZero s) : IdleAtZero t := by
  obtain ⟨p, hp, rfl⟩ := controllerTick_eq_next_iff.1 h
  intro hidle
  change nextCount s p start = 0
  obtain ⟨rfl, rfl⟩ | ⟨rfl, hdone⟩ := nextPhase_eq_idle (PhaseReg.named.inj hidle)
  · rw [nextCount, countDone_iff.2 (hs hp)]; rfl
  · rw [nextCount, hdone]; rfl

/-- An operation that is no reset keeps `IDLE implies count = 0`, and with `COUNT_RESET = 0` a reset does too
(40_controller.md R95). -/
theorem idleAtZero_of_runOp {op : Op} {s t : State} (hr : isReset op = false ∨ s.cfg.countReset = 0)
    (h : runOp op s = .next t) (hs : IdleAtZero s) : IdleAtZero t := by
  obtain ⟨hreset, rfl⟩ | ⟨-, -, rfl⟩ | ⟨-, start, samples, u, -, hu, rfl⟩ := runOp_eq_next_cases h
  · exact fun _ => hr.resolve_left (by simp [hreset])
  · exact hs
  · exact idleAtZero_of_controllerTick (t := u) hu hs

/-- A TICK row is refused by name in a state that its key does not select (notes/assumptions/10.md). -/
theorem tickRow_of_not_key {p : Phase} {done : Bool} {s : State} (t : State)
    (h : ¬ (s.phase = .named p ∧ s.countDone = done)) : tickRow p done s t = .refused .keyMismatch := if_neg h

/-- A state with IDLE at zero is selected by no key of IDLE with a nonzero counter. -/
theorem not_idle_key_of_idleAtZero {s : State} (h : IdleAtZero s) :
    ¬ (s.phase = .named .idle ∧ s.countDone = false) :=
  fun ⟨hp, hd⟩ => countDone_false_iff.1 hd (h hp)

end Sys2Proof.Machine
end

section
/-! The invariants of the state (10_state.md section 1, 40_controller.md section 4, 41_clock_synth.md R105). -/

namespace Sys2Proof.Safety

open Sys2Proof.Machine

/-- Settles O39: a step is the next operation, taken from the trace; it keeps the rest, the configuration and the shape. -/
theorem stepKeepsShapeAndConfiguration : Obligations.StepKeepsShapeAndConfiguration := by
  intro s t h
  obtain ⟨-, op, rest, htrace, -, hop⟩ := step_eq_next_iff.1 h
  obtain ⟨hcfg, hrest⟩ := runOp_frame hop
  exact ⟨hcfg, ⟨op, htrace.trans (congrArg _ hrest.symm)⟩, wellShaped_of_runOp (s := s.consume rest) hop⟩

/-- Settles O40: the bound of the counter is kept by every operation, and a block's register is wide enough for it. -/
theorem stepKeepsTheSequencerBounded : Obligations.StepKeepsTheSequencerBounded := by
  intro s t hs h
  obtain ⟨⟨-, -, -, -, hwidth⟩, op, rest, -, -, hop⟩ := step_eq_next_iff.1 h
  obtain ⟨hcfg, -⟩ := runOp_frame hop
  have ht := sequencerBounded_of_runOp hop hs
  refine ⟨ht, fun hfit => ?_⟩
  obtain ⟨-, hcount⟩ := ht
  rw [hcfg] at hcount
  exact hcount.trans_lt (countMax_lt_two_pow_counterBits hwidth hfit)

/-- Settles O41: the next operation keeps the phase invariant. -/
theorem stepKeepsTheClockPhase : Obligations.StepKeepsTheClockPhase := by
  intro s t hs h
  obtain ⟨⟨hadc, -⟩, op, rest, -, -, hop⟩ := step_eq_next_iff.1 h
  exact clockPhase_of_runOp (s := s.consume rest) hadc hop hs

/-- Settles O42: the invariant is kept, and it contradicts the keys of both rows. -/
theorem stepKeepsIdleAtZero : Obligations.StepKeepsIdleAtZero := by
  intro s t op rest htrace hr hs h
  obtain ⟨-, _, _, htrace', -, hop⟩ := step_eq_next_iff.1 h
  cases htrace.symm.trans htrace'
  have ht := idleAtZero_of_runOp (s := s.consume rest) hr hop hs
  have hkey := not_idle_key_of_idleAtZero ht
  exact ⟨ht, tickRow_of_not_key _ hkey, tickRow_of_not_key _ hkey⟩

/-- Settles O43: in IDLE with SEED in the clock register, and the counter at its reset value. -/
theorem powerOnMeetsTheInvariants : Obligations.PowerOnMeetsTheInvariants := fun c =>
  ⟨wellShaped_powerOn c, ⟨rfl, le_max_right _ _⟩, ⟨fun _ => rfl, nofun⟩, fun hzero _ => hzero⟩

/-- Settles O44: in a legal phase the next operation answers a state, whose phase is legal and whose trace is the rest. -/
theorem safeStatesStepOn : Obligations.SafeStatesStepOn := by
  intro s ⟨hc, hlegal, hops⟩ hne
  obtain ⟨op, rest, htrace⟩ := List.exists_cons_of_ne_nil hne
  rw [htrace, List.forall_mem_cons] at hops
  obtain ⟨hw, hrest⟩ := hops
  obtain ⟨t, ht⟩ := exists_runOp (s := s.consume rest) hlegal op
  obtain ⟨hcfg, hleft⟩ := runOp_frame ht
  refine ⟨t, step_eq_next_iff.2 ⟨hc, op, rest, htrace, hw, ht⟩, ?_, legalPhase_of_runOp ht hlegal, ?_⟩
  · rw [hcfg]; exact hc
  · rw [hcfg, hleft]; exact hrest

/-- Settles O50: without reset, only a tick with `update` writes `data` (10_state.md R35). -/
theorem dataIsStableBetweenUpdates : Obligations.DataIsStableBetweenUpdates := by
  intro s t op rest htrace h hr hquiet
  obtain ⟨hnoTick, -, -, hnoUpdate⟩ := eachRegisterHasOneWriter s t op rest htrace h hr
  rcases hquiet with hupdate | htick
  · exact hnoUpdate hupdate
  · rw [hnoTick htick]

end Sys2Proof.Safety
end

section
/-! Phase and counter as a function of the `start` inputs of the ticks, the lanes as a function of the return edges, and the
schedule of an acquisition (40_controller.md section 4, 42_deserializer.md R111). -/

namespace Sys2Proof.Machine

open Sys2Proof.Safety

/-! ## Runs without reset -/

/-- A trace without reset, from its first operation on. -/
theorem resetFree_cons_iff {c : Config} {op : Op} {ops : List Op} :
    resetFree c (op :: ops) = true ↔
      op.wellFormed c.adc.lanes = true ∧ isReset op = false ∧ resetFree c ops = true := by
  simp [resetFree, and_assoc]

/-- In a legal phase a run without reset reaches its end. -/
theorem exists_runOps_of_resetFree {s : State} {ops : List Op} (hc : ConfigValid s.cfg)
    (hlegal : legalPhase s.phase = true) (hf : resetFree s.cfg ops = true) : ∃ t, runOps ops s = .next t := by
  refine exists_runOps hc hlegal fun op hop => ?_
  have hgood := List.all_eq_true.1 hf op hop
  exact (Bool.and_eq_true_iff.1 hgood).1

/-! ## The sequencer -/

/-- Phase and counter after a tick, as a function of themselves and of `start` (40_controller.md R72, R73). -/
def sequencerTick (c : Config) (x : Phase × Nat) (start : Bool) : Phase × Nat :=
  (nextPhase x.1 start (x.2 == 0), if x.2 = 0 then countLoad c x.1 start else x.2 - 1)

/-- Phase and counter after the ticks of a trace without reset. -/
def sequencerAfter (c : Config) (x : Phase × Nat) (ops : List Op) : Phase × Nat :=
  (ops.filterMap tickStart).foldl (sequencerTick c) x

/-- The state is in this phase with this counter. -/
abbrev SequencerAt (s : State) (x : Phase × Nat) : Prop := s.phase = .named x.1 ∧ s.count = x.2

/-- An operation without a tick moves no sequencer. -/
theorem sequencerAfter_cons_of_none {c : Config} {x : Phase × Nat} {op : Op} (ops : List Op) (h : tickStart op = none) :
    sequencerAfter c x (op :: ops) = sequencerAfter c x ops := by
  rw [sequencerAfter, List.filterMap_cons_none h]
  rfl

/-- A tick moves the sequencer by its `start`. -/
theorem sequencerAfter_cons_of_some {c : Config} {x : Phase × Nat} {op : Op} {start : Bool} (ops : List Op)
    (h : tickStart op = some start) : sequencerAfter c x (op :: ops) = sequencerAfter c (sequencerTick c x start) ops := by
  rw [sequencerAfter, List.filterMap_cons_some h]
  rfl

/-- A composed tick is a tick of the sequencer, whatever it samples (40_controller.md R73). -/
theorem sequencerAt_of_controllerTick {start : Bool} {samples : List (List (Lifted Bool))} {s t : State} {x : Phase × Nat}
    (h : controllerTick start samples s = .next t) (hx : SequencerAt s x) :
    SequencerAt t (sequencerTick s.cfg x start) := by
  obtain ⟨hp, hn⟩ := hx
  cases (controllerTick_of_key start samples hp rfl).symm.trans h
  refine ⟨?_, ?_⟩
  · rw [sequencerTick, ← hn]; rfl
  · simp only [State.afterTick, sequencerTick, countDone_iff, hn]

/-- A run without reset moves the sequencer by the `start` inputs of its ticks, whatever return edges come between
(20_memory.md R47). -/
theorem sequencerAt_of_runOps {ops : List Op} {s t : State} {x : Phase × Nat} (h : runOps ops s = .next t)
    (hf : resetFree s.cfg ops = true) (hx : SequencerAt s x) : SequencerAt t (sequencerAfter s.cfg x ops) := by
  induction ops generalizing s x with
  | nil => cases h; exact hx
  | cons op ops ih =>
    obtain ⟨-, -, u, hop, hrun⟩ := runOps_cons_eq_next_iff.1 h
    obtain ⟨-, hr, hf'⟩ := resetFree_cons_iff.1 hf
    obtain ⟨hcfg, -⟩ := runOp_frame hop
    rw [← hcfg] at hf' ⊢
    obtain ⟨hreset, -⟩ | ⟨-, hstart, rfl⟩ | ⟨-, start, samples, v, hstart, hv, rfl⟩ := runOp_eq_next_cases hop
    · cases hr.symm.trans hreset
    · rw [sequencerAfter_cons_of_none ops hstart]
      exact ih hrun hf' hx
    · rw [sequencerAfter_cons_of_some ops hstart]
      have hcfg : v.cfg = s.cfg := hcfg
      refine ih hrun hf' ?_
      change SequencerAt v (sequencerTick v.cfg x start)
      rw [hcfg]
      exact sequencerAt_of_controllerTick hv hx

/-! ## The lanes -/

/-- A run without reset moves the lanes by its return edges, whatever ticks come between (42_deserializer.md R112). -/
theorem sr_of_runOps {ops : List Op} {s t : State} (h : runOps ops s = .next t) (hf : resetFree s.cfg ops = true) :
    t.sr = (returnEdges ops).foldl shiftLanes s.sr := by
  induction ops generalizing s with
  | nil => cases h; rfl
  | cons op ops ih =>
    obtain ⟨-, -, u, hop, hrun⟩ := runOps_cons_eq_next_iff.1 h
    obtain ⟨-, hr, hf'⟩ := resetFree_cons_iff.1 hf
    obtain ⟨hcfg, -⟩ := runOp_frame hop
    have hsr : u.sr = lanesAfter op s.sr := by
      obtain ⟨hreset, -⟩ | ⟨-, -, rfl⟩ | ⟨-, -, -, v, -, -, rfl⟩ := runOp_eq_next_cases hop
      · cases hr.symm.trans hreset
      · rfl
      · rfl
    rw [ih hrun (hcfg ▸ hf'), hsr, lanesAfter]
    cases he : edgeLevels op with
    | none => rw [returnEdges, returnEdges, List.filterMap_cons_none he]
    | some sdo => rw [returnEdges, returnEdges, List.filterMap_cons_some he]; rfl

/-! ## Phases and the schedule -/

/-- While the counter is not 0 a tick of a phase other than IDLE counts down in it (40_controller.md R98). -/
theorem sequencerTick_hold (c : Config) {p : Phase} (hp : p ≠ .idle) (n : Nat) (start : Bool) :
    sequencerTick c (p, n + 1) start = (p, n) := by
  cases p with
  | idle => exact absurd rfl hp
  | cnvh => rfl
  | conv => rfl
  | read => rfl
  | rtt => rfl

/-- At most `count` ticks of a phase other than IDLE count down in it (40_controller.md R98). -/
theorem foldl_sequencerTick_hold (c : Config) {p : Phase} (hp : p ≠ .idle) {starts : List Bool} {n : Nat}
    (h : starts.length ≤ n) : starts.foldl (sequencerTick c) (p, n) = (p, n - starts.length) := by
  induction starts generalizing n with
  | nil => rfl
  | cons start starts ih =>
    obtain ⟨m, rfl⟩ := Nat.exists_eq_add_of_le' (Nat.one_le_of_lt h)
    have hle : starts.length ≤ m := Nat.le_of_succ_le_succ h
    rw [List.foldl_cons, sequencerTick_hold c hp, ih hle, List.length_cons, Nat.add_sub_add_right]

/-- Outside IDLE the next phase does not depend on `start` (40_controller.md R91). -/
theorem nextPhase_start {p : Phase} (hp : p ≠ .idle) (start start' done : Bool) :
    nextPhase p start done = nextPhase p start' done := by
  cases p with
  | idle => exact absurd rfl hp
  | cnvh => rfl
  | conv => rfl
  | read => rfl
  | rtt => rfl

/-- One tick more than `count` ends a phase other than IDLE (40_controller.md R98). -/
theorem foldl_sequencerTick_end (c : Config) {p : Phase} (hp : p ≠ .idle) {starts : List Bool} {n : Nat}
    (h : starts.length = n + 1) : (starts.foldl (sequencerTick c) (p, n)).1 = nextPhase p false true := by
  obtain ⟨init, last, rfl⟩ := (List.eq_nil_or_concat starts).resolve_left (List.ne_nil_of_length_eq_add_one h)
  have hinit : init.length = n := by simpa using h
  rw [List.concat_eq_append, List.foldl_append, foldl_sequencerTick_hold c hp hinit.le, hinit, Nat.sub_self]
  exact nextPhase_start hp last false true

/-- The schedule in its CNVH cycles (40_controller.md R93). -/
theorem schedule_of_cnvh {c : Config} {n : Nat} (h : n < c.adc.tCnvh) : schedule c n = (.cnvh, c.adc.tCnvh - 1 - n) := by
  simp [schedule, h]

/-- The schedule in its CONV cycles (40_controller.md R93). -/
theorem schedule_of_conv {c : Config} {n : Nat} (hlo : c.adc.tCnvh ≤ n) (h : n < c.adc.tCnvh + c.adc.tConv) :
    schedule c n = (.conv, c.adc.tCnvh + c.adc.tConv - 1 - n) := by
  simp [schedule, h, hlo.not_gt]

/-- The schedule in its READ cycles (40_controller.md R93). -/
theorem schedule_of_read {c : Config} {n : Nat} (hlo : c.adc.tCnvh + c.adc.tConv ≤ n)
    (h : n < c.adc.tCnvh + c.adc.tConv + c.readDuration) :
    schedule c n = (.read, c.adc.tCnvh + c.adc.tConv + c.readDuration - 1 - n) := by
  have hcnvh : ¬ n < c.adc.tCnvh := by omega
  simp [schedule, h, hlo.not_gt, hcnvh]

/-- The schedule in its RTT cycles (40_controller.md R93). -/
theorem schedule_of_rtt {c : Config} {n : Nat} (hlo : c.adc.tCnvh + c.adc.tConv + c.readDuration ≤ n)
    (h : n < c.acquisitionCycles) : schedule c n = (.rtt, c.acquisitionCycles - 1 - n) := by
  have hcnvh : ¬ n < c.adc.tCnvh := by omega
  have hconv : ¬ n < c.adc.tCnvh + c.adc.tConv := by omega
  simp [schedule, h, hlo.not_gt, hcnvh, hconv]

/-- The schedule after its last cycle (40_controller.md R94). -/
theorem schedule_of_end {c : Config} {n : Nat} (h : c.acquisitionCycles ≤ n) : schedule c n = (.idle, 0) := by
  unfold Config.acquisitionCycles at h
  have hcnvh : ¬ n < c.adc.tCnvh := by omega
  have hconv : ¬ n < c.adc.tCnvh + c.adc.tConv := by omega
  have hread : ¬ n < c.adc.tCnvh + c.adc.tConv + c.readDuration := by omega
  have hrtt : ¬ n < c.acquisitionCycles := by unfold Config.acquisitionCycles; omega
  simp [schedule, hcnvh, hconv, hread, hrtt]

/-- In a phase other than IDLE that is over by cycle `stop`, a tick of any cycle but its last counts down. -/
theorem sequencerTick_countdown (c : Config) {p : Phase} (hp : p ≠ .idle) {stop n : Nat} (h : n + 1 < stop)
    (start : Bool) : sequencerTick c (p, stop - 1 - n) start = (p, stop - 1 - (n + 1)) := by
  have hsucc : stop - 1 - n = stop - 1 - (n + 1) + 1 := by omega
  rw [hsucc]
  exact sequencerTick_hold c hp _ start

/-- A tick with the counter at 0 leads to the next phase with its load (40_controller.md R71). -/
theorem sequencerTick_end {c : Config} {p q : Phase} {start : Bool} {k load : Nat} (hk : k = 0)
    (hq : nextPhase p start true = q) (hload : countLoad c p start = load) : sequencerTick c (p, k) start = (q, load) := by
  subst hk hq hload
  rfl

/-- A tick leads from one cycle of the schedule to the next, whatever `start` is (40_controller.md R93). -/
theorem sequencerTick_schedule {c : Config} (hadc : AdcValid c.adc) {n : Nat} (h : n < c.acquisitionCycles) (start : Bool) :
    sequencerTick c (schedule c n) start = schedule c (n + 1) := by
  have hread := three_le_readDuration hadc
  obtain ⟨-, -, -, -, hcnvh, hconv, hrtt⟩ := hadc
  have hN : c.acquisitionCycles = c.adc.tCnvh + c.adc.tConv + c.readDuration + c.adc.tRtt := rfl
  by_cases h1 : n < c.adc.tCnvh
  · rw [schedule_of_cnvh h1]
    by_cases hmore : n + 1 < c.adc.tCnvh
    · rw [schedule_of_cnvh hmore]
      exact sequencerTick_countdown (p := .cnvh) c nofun hmore start
    · rw [schedule_of_conv (by omega) (by omega)]
      exact sequencerTick_end (by omega) rfl (by simp only [countLoad, Config.ldConv]; omega)
  by_cases h2 : n < c.adc.tCnvh + c.adc.tConv
  · rw [schedule_of_conv (by omega) h2]
    by_cases hmore : n + 1 < c.adc.tCnvh + c.adc.tConv
    · rw [schedule_of_conv (by omega) hmore]
      exact sequencerTick_countdown (p := .conv) c nofun hmore start
    · rw [schedule_of_read (by omega) (by omega)]
      exact sequencerTick_end (by omega) rfl (by simp only [countLoad, Config.ldRead]; omega)
  by_cases h3 : n < c.adc.tCnvh + c.adc.tConv + c.readDuration
  · rw [schedule_of_read (by omega) h3]
    by_cases hmore : n + 1 < c.adc.tCnvh + c.adc.tConv + c.readDuration
    · rw [schedule_of_read (by omega) hmore]
      exact sequencerTick_countdown (p := .read) c nofun hmore start
    · rw [schedule_of_rtt (by omega) (by omega)]
      exact sequencerTick_end (by omega) rfl (by simp only [countLoad, Config.ldRtt]; omega)
  · rw [schedule_of_rtt (by omega) h]
    by_cases hmore : n + 1 < c.acquisitionCycles
    · rw [schedule_of_rtt (by omega) hmore]
      exact sequencerTick_countdown (p := .rtt) c nofun hmore start
    · rw [schedule_of_end (by omega)]
      exact sequencerTick_end (by omega) rfl rfl

/-- Ticks lead along the schedule up to its end (40_controller.md R93, R94). -/
theorem foldl_sequencerTick_schedule {c : Config} (hadc : AdcValid c.adc) {starts : List Bool} {n : Nat}
    (h : n + starts.length ≤ c.acquisitionCycles) :
    starts.foldl (sequencerTick c) (schedule c n) = schedule c (n + starts.length) := by
  induction starts generalizing n with
  | nil => rfl
  | cons start starts ih =>
    rw [List.length_cons] at h ⊢
    rw [List.foldl_cons, sequencerTick_schedule hadc (by omega), ih (by omega)]
    congr 1
    omega

/-- The schedule begins with the tick that samples `start` in IDLE (40_controller.md R76). -/
theorem sequencerTick_idle_start {c : Config} (hadc : AdcValid c.adc) : sequencerTick c (.idle, 0) true = schedule c 0 := by
  obtain ⟨-, -, -, -, hcnvh, -⟩ := hadc
  rw [schedule_of_cnvh hcnvh]
  rfl

/-- The phase of each cycle of the schedule (40_controller.md R94). -/
theorem schedule_phase_iff {c : Config} {n : Nat} :
    ((schedule c n).1 = .cnvh ↔ n < c.adc.tCnvh)
      ∧ ((schedule c n).1 = .read ↔
          c.adc.tCnvh + c.adc.tConv ≤ n ∧ n < c.adc.tCnvh + c.adc.tConv + c.readDuration)
      ∧ ((schedule c n).1 = .rtt ↔
          c.adc.tCnvh + c.adc.tConv + c.readDuration ≤ n ∧ n < c.acquisitionCycles)
      ∧ ((schedule c n).1 = .idle ↔ c.acquisitionCycles ≤ n) := by
  have hN : c.acquisitionCycles = c.adc.tCnvh + c.adc.tConv + c.readDuration + c.adc.tRtt := rfl
  rcases lt_or_ge n c.adc.tCnvh with h1 | h1
  · simp only [schedule_of_cnvh h1, true_iff, reduceCtorEq, false_iff]; omega
  rcases lt_or_ge n (c.adc.tCnvh + c.adc.tConv) with h2 | h2
  · simp only [schedule_of_conv h1 h2, reduceCtorEq, false_iff]; omega
  rcases lt_or_ge n (c.adc.tCnvh + c.adc.tConv + c.readDuration) with h3 | h3
  · simp only [schedule_of_read h2 h3, true_iff, reduceCtorEq, false_iff]; omega
  rcases lt_or_ge n c.acquisitionCycles with h4 | h4
  · simp only [schedule_of_rtt h3 h4, true_iff, reduceCtorEq, false_iff]; omega
  · simp only [schedule_of_end h4, true_iff, reduceCtorEq, false_iff]; omega

/-- The update cycle is the last of the schedule (40_controller.md R94). -/
theorem schedule_update_iff {c : Config} (hadc : AdcValid c.adc) {n : Nat} :
    ((schedule c n).1 = .rtt ∧ (schedule c n).2 = 0) ↔ n + 1 = c.acquisitionCycles := by
  obtain ⟨-, -, -, -, -, -, hrtt⟩ := hadc
  have hN : c.acquisitionCycles = c.adc.tCnvh + c.adc.tConv + c.readDuration + c.adc.tRtt := rfl
  constructor
  · rintro ⟨hphase, hcount⟩
    obtain ⟨-, -, hphaseRtt, -⟩ := schedule_phase_iff (c := c) (n := n)
    obtain ⟨hlo, hhi⟩ := hphaseRtt.1 hphase
    rw [schedule_of_rtt hlo hhi] at hcount
    change c.acquisitionCycles - 1 - n = 0 at hcount
    omega
  · intro hlast
    rw [schedule_of_rtt (by omega) (by omega)]
    exact ⟨rfl, by change c.acquisitionCycles - 1 - n = 0; omega⟩

/-! ## `start` held at 1 -/

/-- Phase and counter after `m` ticks with `start` at 1 from IDLE with count 0: acquisition after acquisition, each preceded
by one IDLE cycle (40_controller.md R97). -/
def heldSchedule (c : Config) (m : Nat) : Phase × Nat :=
  if m % (c.acquisitionCycles + 1) = 0 then (.idle, 0) else schedule c (m % (c.acquisitionCycles + 1) - 1)

/-- The residue of a count of ticks after one more. -/
theorem succ_mod_of_lt {m n k : Nat} (hm : m % k = n) (h : n + 1 < k) : (m + 1) % k = n + 1 := by
  rw [Nat.add_mod, hm, Nat.mod_eq_of_lt (by omega : 1 < k), Nat.mod_eq_of_lt h]

/-- The residue of a count of ticks that completes a period. -/
theorem succ_mod_of_eq {m n : Nat} (hm : m % (n + 1) = n) : (m + 1) % (n + 1) = 0 := by
  rw [← Nat.mod_add_mod, hm, Nat.mod_self]

/-- A tick with `start` at 1 moves the held schedule on (40_controller.md R97). -/
theorem sequencerTick_heldSchedule {c : Config} (hadc : AdcValid c.adc) (m : Nat) :
    sequencerTick c (heldSchedule c m) true = heldSchedule c (m + 1) := by
  have hread := three_le_readDuration hadc
  have hN : c.acquisitionCycles = c.adc.tCnvh + c.adc.tConv + c.readDuration + c.adc.tRtt := rfl
  cases hm : m % (c.acquisitionCycles + 1) with
  | zero =>
    have hnext := succ_mod_of_lt hm (by omega)
    rw [heldSchedule, if_pos hm, heldSchedule, hnext, if_neg (by omega)]
    exact sequencerTick_idle_start hadc
  | succ n =>
    have hlt : n < c.acquisitionCycles := by
      have hmod : m % (c.acquisitionCycles + 1) < c.acquisitionCycles + 1 := Nat.mod_lt m (Nat.succ_pos _)
      omega
    have hheld : heldSchedule c m = schedule c n := by rw [heldSchedule, hm, if_neg (by omega)]; rfl
    rw [hheld, sequencerTick_schedule hadc hlt]
    by_cases hlast : n + 1 = c.acquisitionCycles
    · rw [heldSchedule, if_pos (succ_mod_of_eq (hm.trans hlast)), schedule_of_end hlast.ge]
    · rw [heldSchedule, succ_mod_of_lt hm (by omega), if_neg (by omega)]
      rfl

/-- Ticks with `start` at 1 lead along the held schedule (40_controller.md R97). -/
theorem foldl_sequencerTick_held {c : Config} (hadc : AdcValid c.adc) (m : Nat) :
    (List.replicate m true).foldl (sequencerTick c) (.idle, 0) = heldSchedule c m := by
  induction m with
  | zero => rw [heldSchedule, Nat.zero_mod, if_pos rfl]; rfl
  | succ m ih => rw [List.replicate_succ', List.foldl_append, ih]; exact sequencerTick_heldSchedule hadc m

/-- The `start` inputs of a trace whose ticks all have `start` at 1. -/
theorem starts_eq_replicate {ops : List Op} (h : ∀ op ∈ ops, tickStart op ≠ some false) :
    ops.filterMap tickStart = List.replicate (tickCount ops) true := by
  refine List.eq_replicate_iff.2 ⟨rfl, fun start hmem => ?_⟩
  obtain ⟨op, hop, hstart⟩ := List.mem_filterMap.1 hmem
  cases start with
  | true => rfl
  | false => exact absurd hstart (h op hop)

end Sys2Proof.Machine
end

section
/-! The timing laws (40_controller.md section 4). -/

namespace Sys2Proof.Safety

open Sys2Proof.Machine

/-- Settles O46: the ticks of the run count the sequencer down in its phase, and the one after them ends it. -/
theorem phaseLastsUntilTheCounterEnds : Obligations.PhaseLastsUntilTheCounterEnds := by
  intro s p ops hc hp hidle hf
  obtain ⟨t, ht⟩ := exists_runOps_of_resetFree hc (legalPhase_iff.2 ⟨p, hp⟩) hf
  obtain ⟨hphase, hcount⟩ := sequencerAt_of_runOps (x := (p, s.count)) ht hf ⟨hp, rfl⟩
  refine ⟨fun hle => ⟨t, ht, ?_⟩, fun hend => ⟨t, ht, ?_⟩⟩
  · rw [sequencerAfter, foldl_sequencerTick_hold s.cfg hidle hle] at hphase hcount
    exact ⟨hphase, hcount⟩
  · rw [hphase, sequencerAfter, foldl_sequencerTick_end s.cfg hidle hend]

/-- Settles O47: the first tick begins the schedule and the others lead along it; each flag is a phase. -/
theorem acquisitionFollowsTheSchedule : Obligations.AcquisitionFollowsTheSchedule := by
  intro s first more hc hp hcount hstart hf hle
  have hadc := hc.1
  obtain ⟨t, ht⟩ := exists_runOps_of_resetFree hc (legalPhase_iff.2 ⟨_, hp⟩) hf
  have hseq : sequencerAfter s.cfg (.idle, 0) (first :: more) = schedule s.cfg (tickCount more) := by
    rw [sequencerAfter_cons_of_some more hstart, sequencerTick_idle_start hadc, sequencerAfter,
      foldl_sequencerTick_schedule hadc (by rw [Nat.zero_add]; exact hle), Nat.zero_add]
    rfl
  obtain ⟨htp, htc⟩ := sequencerAt_of_runOps (x := (.idle, 0)) ht hf ⟨hp, hcount⟩
  rw [hseq] at htp htc
  obtain ⟨hcnvh, hread, hrtt, hidle⟩ := schedule_phase_iff (c := s.cfg) (n := tickCount more)
  have hN : s.cfg.acquisitionCycles = s.cfg.adc.tCnvh + s.cfg.adc.tConv + s.cfg.readDuration + s.cfg.adc.tRtt := rfl
  refine ⟨t, ht, htp, htc, ?_, ?_, ?_, ?_, ?_⟩
  · rw [cnv_iff, htp, PhaseReg.named.injEq, hcnvh]
  · rw [sckEn_iff, htp, PhaseReg.named.injEq, hread]
  · rw [reading_iff, htp, PhaseReg.named.injEq, PhaseReg.named.injEq, hread, hrtt]
    omega
  · rw [update_iff, htp, htc, PhaseReg.named.injEq, schedule_update_iff hadc]
  · rw [done_iff, htp, PhaseReg.named.injEq, hidle]
    exact ⟨fun hge => le_antisymm hle hge, fun heq => heq.ge⟩

/-- Settles O48: the ticks lead along the held schedule, which is read by the residue of their number. -/
theorem heldStartHasPeriodNPlusOne : Obligations.HeldStartHasPeriodNPlusOne := by
  intro s ops hc hp hcount hf hheld
  have hadc := hc.1
  obtain ⟨t, ht⟩ := exists_runOps_of_resetFree hc (legalPhase_iff.2 ⟨_, hp⟩) hf
  obtain ⟨htp, htc⟩ := sequencerAt_of_runOps (x := (.idle, 0)) ht hf ⟨hp, hcount⟩
  rw [sequencerAfter, starts_eq_replicate hheld, foldl_sequencerTick_held hadc, heldSchedule] at htp htc
  refine ⟨t, ht, fun hzero => ?_, fun n hn => ?_⟩
  · rw [if_pos hzero] at htp htc
    exact ⟨htp, htc⟩
  · rw [hn, if_neg (Nat.succ_ne_zero n), Nat.add_sub_cancel] at htp htc
    refine ⟨htp, htc, ?_⟩
    have hlt : n < s.cfg.acquisitionCycles := by
      have hmod : tickCount ops % (s.cfg.acquisitionCycles + 1) < s.cfg.acquisitionCycles + 1 :=
        Nat.mod_lt _ (Nat.succ_pos _)
      omega
    obtain ⟨-, -, -, hidle⟩ := schedule_phase_iff (c := s.cfg) (n := n)
    rw [← Bool.not_eq_true, done_iff, htp, PhaseReg.named.injEq, hidle]
    exact hlt.not_ge

end Sys2Proof.Safety
end

section
/-! Whole runs: the quiescent state, the update at the end of an acquisition, and the independence of `PHASE_CODE` and `CW`
(60_exceptions.md R147, 30_encoding.md R65 and R67, 40_controller.md R96). -/

namespace Sys2Proof.Machine

open Sys2Proof.Safety

/-- A run with one operation more. -/
theorem runOps_concat {ops : List Op} {op : Op} {s t u : State} (h : runOps ops s = .next t) (hc : ConfigValid t.cfg)
    (hw : op.wellFormed t.cfg.adc.lanes = true) (hop : runOp op t = .next u) :
    runOps (ops ++ [op]) s = .next (u.consume []) :=
  runOps_append [op] h (runOps_cons_eq_next_iff.2 ⟨hc, hw, u, hop, runOps_nil u⟩)

/-! ## Quiescence -/

/-- In IDLE with count 0 and no `start`, a composed tick changes no register, whatever it samples (40_controller.md R74). -/
theorem controllerTick_idle_wait {s : State} (samples : List (List (Lifted Bool))) (hp : s.phase = .named .idle)
    (hn : s.count = 0) : controllerTick false samples s = .next s := by
  have hsame : (s.enter .idle).loadCount s.cfg.ldZero = s := by rw [enter_of_phase hp]; exact loadCount_of_count hn
  exact (controllerTick_of_key false samples hp (countDone_iff.2 hn)).trans (congrArg _ hsame)

/-- In IDLE with count 0 an operation without `start` and without reset writes the lanes alone (60_exceptions.md R147). -/
theorem runOp_of_quiescent {s : State} {op : Op} (hp : s.phase = .named .idle) (hn : s.count = 0)
    (hr : isReset op = false) (hstart : tickStart op ≠ some true) :
    runOp op s = .next { s with sr := lanesAfter op s.sr } := by
  obtain ⟨t, ht⟩ := exists_runOp (legalPhase_iff.2 ⟨_, hp⟩) op
  obtain ⟨hreset, -⟩ | ⟨-, -, rfl⟩ | ⟨-, start, samples, u, hstart', hu, rfl⟩ := runOp_eq_next_cases ht
  · cases hr.symm.trans hreset
  · exact ht
  · cases start with
    | true => exact absurd hstart' hstart
    | false =>
      cases (controllerTick_idle_wait samples hp hn).symm.trans hu
      exact ht

/-! ## The update at the end of an acquisition -/

/-- An ordinary tick with `update` enters IDLE with count 0 and publishes from the lanes as they stand, for both values of
`start` (40_controller.md R85, 43_publisher.md R130). -/
theorem runOp_tick_of_update {s : State} (start : Bool) (hu : s.update = true) :
    runOp (.tick start) s = .next { s with phase := .named .idle, count := 0, data := published s.cfg s.sr } := by
  obtain ⟨hp, hn⟩ := update_iff.1 hu
  exact controllerTick_of_key start s.sr hp (countDone_iff.2 hn)

/-- Ticks are operations of every block, and no resets. -/
theorem resetFree_ticks (c : Config) (n : Nat) : resetFree c (ticks n) = true :=
  List.all_eq_true.2 fun op hop => by rw [List.eq_of_mem_replicate hop]; rfl

/-- `ticks n` has n ticks. -/
theorem tickCount_ticks (n : Nat) : tickCount (ticks n) = n := by
  rw [tickCount, ticks, List.filterMap_replicate_of_some (f := tickStart) (b := false) rfl, List.length_replicate]

/-- `ticks n` has no return edge. -/
theorem returnEdges_ticks (n : Nat) : returnEdges (ticks n) = [] :=
  List.filterMap_eq_nil_iff.2 fun op hop => by rw [List.eq_of_mem_replicate hop]; rfl

/-- A run keeps the phase invariant of the clock register (41_clock_synth.md R105). -/
theorem clockPhase_of_runOps {ops : List Op} {s t : State} (h : runOps ops s = .next t) (hs : ClockPhase s) :
    ClockPhase t :=
  runOps_keeps (fun _ _ hu => hu) (fun _ _ _ hc hop hu => clockPhase_of_runOp hc.1 hop hu) h hs

/-! ## `PHASE_CODE` and `CW` -/

/-- The block with another `PHASE_CODE` and another `CW`. -/
def recodeConfig (c : Config) (code : PhaseCode) (width : CounterWidth) : Config :=
  { c with phaseCode := code, counterWidth := width }

/-- The same registers of that block. -/
def State.recode (s : State) (code : PhaseCode) (width : CounterWidth) : State :=
  { s with cfg := recodeConfig s.cfg code width }

/-- No tick depends on `PHASE_CODE` and `CW` (30_encoding.md R65, 40_controller.md R96). -/
theorem controllerTick_recode {start : Bool} {samples : List (List (Lifted Bool))} {s t : State} (code : PhaseCode)
    (width : CounterWidth) (h : controllerTick start samples s = .next t) :
    controllerTick start samples (s.recode code width) = .next (t.recode code width) := by
  obtain ⟨p, hp, rfl⟩ := controllerTick_eq_next_iff.1 h
  refine controllerTick_eq_next_iff.2 ⟨p, hp, ?_⟩
  cases p with
  | idle => cases start <;> rfl
  | cnvh => rfl
  | conv => rfl
  | read => rfl
  | rtt => rfl

/-- No operation depends on `PHASE_CODE` and `CW` (30_encoding.md R65, 40_controller.md R96). -/
theorem runOp_recode {op : Op} {s t : State} (code : PhaseCode) (width : CounterWidth) (h : runOp op s = .next t) :
    runOp op (s.recode code width) = .next (t.recode code width) := by
  cases op with
  | tick start => exact controllerTick_recode code width h
  | rst => cases h; rfl
  | ret sdo => cases h; rfl
  | coinc rst start sdo =>
    cases rst with
    | true => cases h; rfl
    | false =>
      obtain ⟨u, hu, rfl⟩ := coincTick_eq_next_iff.1 h
      exact coincTick_eq_next_iff.2 ⟨_, controllerTick_recode code width hu, rfl⟩

/-- No run of a block depends on its `PHASE_CODE` and `CW`. -/
theorem runOps_recode {ops : List Op} {s t : State} {code : PhaseCode} {width : CounterWidth}
    (hd : ConfigValid (recodeConfig s.cfg code width)) (h : runOps ops s = .next t) :
    runOps ops (s.recode code width) = .next (t.recode code width) := by
  induction ops generalizing s with
  | nil => cases h; rfl
  | cons op ops ih =>
    obtain ⟨-, hw, u, hop, hrun⟩ := runOps_cons_eq_next_iff.1 h
    obtain ⟨hcfg, -⟩ := runOp_frame hop
    exact runOps_cons_eq_next_iff.2 ⟨hd, hw, _, runOp_recode code width hop, ih (hcfg ▸ hd) hrun⟩

end Sys2Proof.Machine
end

section
/-! Runs to their end (20_memory.md section 2, 60_exceptions.md sections 1 and 3, 30_encoding.md section 5). -/

namespace Sys2Proof.Safety

open Sys2Proof.Machine

/-- Settles O45: in the legal phase of power-on every run reaches its end; each invariant holds at power-on and is kept by
every operation, and no operation depends on the two parameters. -/
theorem everyRunReachesItsEnd : Obligations.EveryRunReachesItsEnd := by
  intro c ops hc hw
  obtain ⟨hshape, hbounded, hclock, -⟩ := powerOnMeetsTheInvariants c
  obtain ⟨t, ht⟩ := exists_runOps (s := State.powerOn c) hc rfl hw
  have hcfg : t.cfg = c := cfg_of_runOps ht
  refine ⟨t, ht, trace_of_runOps ht, hcfg,
    runOps_keeps (fun _ _ hu => hu) (fun _ _ _ _ hop hu => wellShaped_of_runOp hop hu) ht hshape,
    runOps_keeps (fun _ _ hu => hu) (fun _ _ _ _ hop hu => sequencerBounded_of_runOp hop hu) ht hbounded,
    clockPhase_of_runOps ht hclock, fun code width d hd hvalid => ?_⟩
  subst hcfg
  subst hd
  exact ⟨runOps_recode (s := State.powerOn t.cfg) hvalid ht, rfl⟩

/-- Settles O49, by induction over the operations, each of which writes the lanes alone. -/
theorem idleWithoutStartIsQuiescent : Obligations.IdleWithoutStartIsQuiescent := by
  intro s ops hc hp hn hf hstart
  induction ops generalizing s with
  | nil => exact ⟨_, runOps_nil s, rfl⟩
  | cons op ops ih =>
    obtain ⟨hw, hr, hf'⟩ := resetFree_cons_iff.1 hf
    rw [List.forall_mem_cons] at hstart
    obtain ⟨hfirst, hrest⟩ := hstart
    have hop := runOp_of_quiescent hp hn hr hfirst
    obtain ⟨t, ht, hkeep⟩ := ih { s with sr := lanesAfter op s.sr } hc hp hn hf' hrest
    exact ⟨t, runOps_cons_eq_next_iff.2 ⟨hc, hw, _, hop, ht⟩, hkeep⟩

/-- Settles O59: all but the last tick lead to the update cycle, with the lanes as they were and SEED in the clock register;
the last one publishes. -/
theorem acquireEndsWithTheUpdate : Obligations.AcquireEndsWithTheUpdate := by
  intro s hc hclock hp hn
  obtain ⟨-, -, -, -, -, -, hrtt⟩ := hc.1
  obtain ⟨m, hm⟩ : ∃ m, s.cfg.acquisitionCycles = m + 1 :=
    Nat.exists_eq_add_of_le' (hrtt.trans (Nat.le_add_left _ _))
  have hticks : acquire s.cfg = .tick true :: ticks m ++ [.tick false] := by
    rw [acquire, ticks, hm, List.replicate_succ']; rfl
  have hf : resetFree s.cfg (.tick true :: ticks m) = true := resetFree_cons_iff.2 ⟨rfl, rfl, resetFree_ticks _ m⟩
  obtain ⟨t, ht, -, -, -, -, -, hupdate, -⟩ := acquisitionFollowsTheSchedule s (.tick true) (ticks m) hc hp hn rfl hf
    (by rw [tickCount_ticks]; omega)
  have hu : t.update = true := hupdate.2 (by rw [tickCount_ticks, hm])
  have hcfg := cfg_of_runOps ht
  have hsr : t.sr = s.sr := by
    rw [sr_of_runOps ht hf, returnEdges, List.filterMap_cons_none rfl, ← returnEdges, returnEdges_ticks]; rfl
  have hclk : t.clkSr = s.clkSr := by
    obtain ⟨hseed, -⟩ := hclock
    obtain ⟨hseed', -⟩ := clockPhase_of_runOps ht ⟨hseed, by simp [hp]⟩
    rw [hseed' (by simp [update_iff.1 hu]), hseed (by simp [hp]), hcfg]
  rw [hticks, runOps_concat ht (hcfg ▸ hc) rfl (runOp_tick_of_update false hu)]
  simp only [State.consume, hcfg, hsr, hclk, hp, hn]

end Sys2Proof.Safety
end

section
/-! The lanes after a run, the default DEINT, and the words that an update publishes from the last return edges
(42_deserializer.md R114, 43_publisher.md R127, R133, R134). -/

namespace Sys2Proof.Machine

open Sys2Proof.Safety

/-! ## The window law -/

/-- The lanes have the count and depth of a block. -/
abbrev LanesShaped (c : Config) (sr : List (List (Lifted Bool))) : Prop :=
  sr.length = c.adc.lanes ∧ ∀ lane ∈ sr, lane.length = c.srDepth

/-- Return edges keep the count and depth of the lanes. -/
theorem lanesShaped_foldl_shiftLanes {c : Config} {sr : List (List (Lifted Bool))} (edges : List (List Bool))
    (h : LanesShaped c sr) : LanesShaped c (edges.foldl shiftLanes sr) := by
  induction edges generalizing sr with
  | nil => exact h
  | cons sdo edges ih =>
    obtain ⟨hcount, hdepth⟩ := h
    exact ih ⟨(shiftLanes_length sr sdo).trans hcount, shiftLanes_depth hdepth⟩

/-- Bit `m` of a lane after one return edge: the new level, or the bit that stood one place lower (42_deserializer.md
R111). -/
theorem sampleBit_shiftLanes {c : Config} {sr : List (List (Lifted Bool))} (sdo : List Bool) {p m : Nat}
    (h : LanesShaped c sr) (hp : p < c.adc.lanes) (hm : m < c.srDepth) :
    sampleBit (shiftLanes sr sdo) p m = if m = 0 then .val (laneLevel sdo p) else sampleBit sr p (m - 1) := by
  obtain ⟨hcount, hdepth⟩ := h
  have hlane : sr[p]? = some sr[p] := List.getElem?_eq_getElem (hcount.symm ▸ hp)
  have hlen : m < sr[p].length := (hdepth _ (List.getElem_mem _)).symm ▸ hm
  simp only [sampleBit, List.getD_eq_getElem?_getD, shiftLanes_getElem?, hlane, Option.map_some, Option.getD_some]
  rw [shiftLane_getElem? _ _ _ hlen]
  split <;> rfl

/-- The window law (42_deserializer.md R114): bit `m` of a lane is the level received `m` edges before the last one, or the
bit that stood as many places lower as there are edges. -/
theorem sampleBit_foldl_shiftLanes {c : Config} {sr : List (List (Lifted Bool))} (edges : List (List Bool)) {p m : Nat}
    (h : LanesShaped c sr) (hp : p < c.adc.lanes) (hm : m < c.srDepth) :
    sampleBit (edges.foldl shiftLanes sr) p m =
      if m < edges.length then .val (laneLevel (edges.reverse.getD m []) p) else sampleBit sr p (m - edges.length) := by
  induction edges using List.reverseRecOn generalizing m with
  | nil => rfl
  | append_singleton edges sdo ih =>
    have hshape := lanesShaped_foldl_shiftLanes edges h
    rw [List.foldl_append, List.foldl_cons, List.foldl_nil, sampleBit_shiftLanes sdo hshape hp hm, List.reverse_concat,
      List.length_append, List.length_singleton]
    cases m with
    | zero => simp
    | succ m => simpa using ih (Nat.lt_of_succ_lt hm)

/-! ## The default DEINT -/

/-- The channel group of a channel is one of the lanes (43_publisher.md R122). -/
theorem group_lt_lanes {c : Config} (hadc : AdcValid c.adc) {ch : Nat} (hch : ch < c.adc.channels) :
    ch / c.wordsPerLane < c.adc.lanes := by
  rw [channels_eq hadc] at hch
  exact Nat.div_lt_of_lt_mul (Nat.mul_comm _ _ ▸ hch)

/-- Bit `b` of slot `i` of `k` slots of `W` bits lies in the `k * W` bits. -/
theorem slot_bit_lt {k W i b : Nat} (hi : i < k) (hb : b < W) : i * W + b < k * W :=
  calc i * W + b < i * W + W := Nat.add_lt_add_left hb _
    _ = (i + 1) * W := (Nat.succ_mul i W).symm
    _ ≤ k * W := Nat.mul_le_mul_right W hi

/-- A bit of a slot determines the slot and the place in it. -/
theorem slot_bit_div_mod {W b : Nat} (i : Nat) (hb : b < W) : (i * W + b) / W = i ∧ (i * W + b) % W = b := by
  rw [Nat.add_comm, Nat.add_mul_div_right _ _ (Nat.zero_lt_of_lt hb), Nat.add_mul_mod_self_right, Nat.div_eq_of_lt hb,
    Nat.mod_eq_of_lt hb]
  exact ⟨Nat.zero_add i, rfl⟩

/-- The default DEINT is the formula (43_publisher.md R127). -/
theorem deintAt_of_standard {c : Config} (hdeint : c.deint = .standard) (ch b : Nat) :
    deintAt c ch b = some
      (c.adc.lanes - 1 - ch / c.wordsPerLane, (c.wordsPerLane - 1 - ch % c.wordsPerLane) * c.adc.width + b) := by
  rw [deintAt, hdeint]
  rfl

/-- The window lies in the lane (43_publisher.md R123). -/
theorem windowBits_lt_srDepth {c : Config} (hadc : AdcValid c.adc) : c.windowBits < c.srDepth := by
  have hpos := windowBits_pos hadc
  have hread := readDuration_eq hadc
  unfold Config.srDepth
  omega

/-- The default DEINT stays in the lanes and in their windows (43_publisher.md R127). -/
theorem deintStandard_lt {c : Config} (hadc : AdcValid c.adc) {ch b : Nat} (hb : b < c.adc.width) :
    c.adc.lanes - 1 - ch / c.wordsPerLane < c.adc.lanes
      ∧ (c.wordsPerLane - 1 - ch % c.wordsPerLane) * c.adc.width + b < c.windowBits := by
  have hk := wordsPerLane_pos hadc
  obtain ⟨-, hlanes, -⟩ := hadc
  exact ⟨(Nat.sub_le _ _).trans_lt (Nat.sub_one_lt_of_lt hlanes),
    slot_bit_lt ((Nat.sub_le _ _).trans_lt (Nat.sub_one_lt_of_lt hk)) hb⟩

/-- The default DEINT is injective: the lane gives the group, the slot the channel in it, and the place the bit
(43_publisher.md R127). -/
theorem deintStandard_injective {c : Config} (hadc : AdcValid c.adc) {ch b ch' b' : Nat} (hch : ch < c.adc.channels)
    (hb : b < c.adc.width) (hch' : ch' < c.adc.channels) (hb' : b' < c.adc.width)
    (hlane : c.adc.lanes - 1 - ch / c.wordsPerLane = c.adc.lanes - 1 - ch' / c.wordsPerLane)
    (hbit : (c.wordsPerLane - 1 - ch % c.wordsPerLane) * c.adc.width + b
      = (c.wordsPerLane - 1 - ch' % c.wordsPerLane) * c.adc.width + b') : ch = ch' ∧ b = b' := by
  have hgroup := group_lt_lanes hadc hch
  have hgroup' := group_lt_lanes hadc hch'
  have hslot := Nat.mod_lt ch (wordsPerLane_pos hadc)
  have hslot' := Nat.mod_lt ch' (wordsPerLane_pos hadc)
  obtain ⟨hdiv, hmod⟩ := slot_bit_div_mod (c.wordsPerLane - 1 - ch % c.wordsPerLane) hb
  obtain ⟨hdiv', hmod'⟩ := slot_bit_div_mod (c.wordsPerLane - 1 - ch' % c.wordsPerLane) hb'
  rw [hbit] at hdiv hmod
  have hsameGroup : ch / c.wordsPerLane = ch' / c.wordsPerLane := by omega
  have hsameSlot : ch % c.wordsPerLane = ch' % c.wordsPerLane := by
    have heq := hdiv.symm.trans hdiv'
    omega
  refine ⟨?_, hmod.symm.trans hmod'⟩
  rw [← Nat.div_add_mod ch c.wordsPerLane, hsameGroup, hsameSlot, Nat.div_add_mod]

/-- The channel and the bit that the default DEINT takes from a bit of a window (43_publisher.md R127). -/
theorem exists_deintStandard {c : Config} (hadc : AdcValid c.adc) {p q : Nat} (hp : p < c.adc.lanes)
    (hq : q < c.windowBits) :
    ∃ ch b, ch < c.adc.channels ∧ b < c.adc.width ∧ c.adc.lanes - 1 - ch / c.wordsPerLane = p
      ∧ (c.wordsPerLane - 1 - ch % c.wordsPerLane) * c.adc.width + b = q := by
  have hk := wordsPerLane_pos hadc
  have hslot : q / c.adc.width < c.wordsPerLane := Nat.div_lt_of_lt_mul (Nat.mul_comm _ _ ▸ hq)
  obtain ⟨hdiv, hmod⟩ := slot_bit_div_mod (c.adc.lanes - 1 - p) (Nat.sub_one_sub_lt hslot)
  refine ⟨(c.adc.lanes - 1 - p) * c.wordsPerLane + (c.wordsPerLane - 1 - q / c.adc.width), q % c.adc.width,
    ?_, ?_, ?_, ?_⟩
  · rw [channels_eq hadc]
    exact slot_bit_lt (Nat.sub_one_sub_lt hp) (Nat.sub_one_sub_lt hslot)
  · obtain ⟨-, -, -, hwidth, -⟩ := hadc
    exact Nat.mod_lt q hwidth
  · rw [hdiv]
    omega
  · rw [hmod, Nat.sub_sub_self (Nat.le_sub_one_of_lt hslot)]
    exact Nat.div_add_mod' q c.adc.width

/-! ## What the last return edges publish -/

/-- The level that bit `b` of channel `ch` takes from the last of the return edges `edges` (43_publisher.md R127). -/
def receivedBit (c : Config) (edges : List (List Bool)) (ch b : Nat) : Bool :=
  laneLevel (edges.reverse.getD ((c.wordsPerLane - 1 - ch % c.wordsPerLane) * c.adc.width + b) [])
    (c.adc.lanes - 1 - ch / c.wordsPerLane)

/-- The word that channel `ch` receives from the last of the return edges `edges`. -/
def receivedWord (c : Config) (edges : List (List Bool)) (ch : Nat) : Word :=
  wordOfBits ((List.range c.adc.width).map (receivedBit c edges ch))

/-- Once the edges fill the windows, every raw bit is the received one (42_deserializer.md R114). -/
theorem rawBit_foldl_shiftLanes {c : Config} {sr : List (List (Lifted Bool))} {edges : List (List Bool)}
    (hadc : AdcValid c.adc) (hdeint : c.deint = .standard) (hsr : LanesShaped c sr)
    (hedges : c.windowBits ≤ edges.length) (ch : Nat) {b : Nat} (hb : b < c.adc.width) :
    rawBit c (edges.foldl shiftLanes sr) ch b = .val (receivedBit c edges ch b) := by
  obtain ⟨hlane, hbit⟩ := deintStandard_lt (ch := ch) hadc hb
  rw [rawBit, deintAt_of_standard hdeint]
  exact (sampleBit_foldl_shiftLanes edges hsr hlane (hbit.trans (windowBits_lt_srDepth hadc))).trans
    (if_pos (hbit.trans_le hedges))

/-- Once the edges of a run fill the windows, what a channel is published as is the negation of what it received
(43_publisher.md R133). -/
theorem publishWord_of_runOps {s t : State} {ops : List Op} (hadc : AdcValid s.cfg.adc) (hdeint : s.cfg.deint = .standard)
    (hs : WellShaped s) (hf : resetFree s.cfg ops = true) (hedges : s.cfg.windowBits ≤ (returnEdges ops).length)
    (h : runOps ops s = .next t) (ch : Nat) :
    publishWord (rawBits s.cfg t.sr ch) = .val (negW (receivedWord s.cfg (returnEdges ops) ch)) := by
  obtain ⟨hcount, hdepth, -⟩ := hs
  have hraw : rawBits s.cfg t.sr ch =
      ((List.range s.cfg.adc.width).map (receivedBit s.cfg (returnEdges ops) ch)).map .val := by
    rw [sr_of_runOps h hf, rawBits, List.map_map]
    exact List.map_congr_left fun b hb =>
      rawBit_foldl_shiftLanes hadc hdeint ⟨hcount, hdepth⟩ hedges ch (List.mem_range.1 hb)
  rw [hraw, publishWord_of_defined]
  rfl

/-- Only the last edges count for a received bit (43_publisher.md R134). -/
theorem receivedBit_of_suffix {c : Config} {last edges : List (List Bool)} (hadc : AdcValid c.adc)
    (hsuffix : last <:+ edges) (hlast : last.length = c.windowBits) (ch : Nat) {b : Nat} (hb : b < c.adc.width) :
    receivedBit c edges ch b = receivedBit c last ch b := by
  obtain ⟨-, hbit⟩ := deintStandard_lt (ch := ch) hadc hb
  obtain ⟨before, rfl⟩ := hsuffix
  rw [receivedBit, receivedBit, List.reverse_append,
    List.getD_append _ _ _ _ (by rw [List.length_reverse, hlast]; exact hbit)]

/-- Only the last edges count for a received word (43_publisher.md R134). -/
theorem receivedWord_of_suffix {c : Config} {last edges : List (List Bool)} (hadc : AdcValid c.adc)
    (hsuffix : last <:+ edges) (hlast : last.length = c.windowBits) (ch : Nat) :
    receivedWord c edges ch = receivedWord c last ch := by
  rw [receivedWord, receivedWord]
  exact congrArg wordOfBits (List.map_congr_left fun b hb =>
    receivedBit_of_suffix hadc hsuffix hlast ch (List.mem_range.1 hb))

/-- In an update cycle RTT_UPDATE applies (40_controller.md R85). -/
theorem exists_exec_rttUpdate {s : State} (start : Bool) (hu : s.update = true) :
    ∃ u, exec (.rttUpdate start) s = .next u := by
  obtain ⟨hp, hn⟩ := update_iff.1 hu
  exact ⟨_, tickRow_of_key _ hp (countDone_iff.2 hn)⟩

/-- An update after a run whose edges fill the windows publishes the negation of what each channel received. -/
theorem dataAt_of_update_after_runOps {s t u : State} {ops : List Op} {start : Bool} (hadc : AdcValid s.cfg.adc)
    (hdeint : s.cfg.deint = .standard) (hs : WellShaped s) (hf : resetFree s.cfg ops = true)
    (hedges : s.cfg.windowBits ≤ (returnEdges ops).length) (h : runOps ops s = .next t)
    (hu : exec (.rttUpdate start) t = .next u) {ch : Nat} (hch : ch < s.cfg.adc.channels) :
    u.dataAt ch = .val (negW (receivedWord s.cfg (returnEdges ops) ch)) := by
  have hcfg := cfg_of_runOps h
  rw [dataAt_of_exec_rttUpdate hu (hcfg ▸ hch), hcfg]
  exact publishWord_of_runOps hadc hdeint hs hf hedges h ch

/-! ## The transfer -/

/-- A transfer has `k * W` return edges (20_memory.md R46). -/
theorem transferLines_length (c : Config) (x : List Word) : (transferLines c x).length = c.windowBits := by
  simp [transferLines]

/-- Line `m` of a transfer. -/
theorem transferLines_getElem? (c : Config) (x : List Word) {m : Nat} (hm : m < c.windowBits) :
    (transferLines c x)[m]? = some (transferLine c x m) := by
  rw [transferLines, List.getElem?_map, List.getElem?_range hm]
  rfl

/-- The level of a lane in a line of a transfer (30_encoding.md R67). -/
theorem transferLine_getElem? (c : Config) (x : List Word) (m : Nat) {p : Nat} (hp : p < c.adc.lanes) :
    (transferLine c x m)[p]? = some (transmittedBit x ((c.adc.lanes - 1 - p) * c.wordsPerLane + m / c.adc.width)
      (c.adc.width - 1 - m % c.adc.width)) := by
  rw [transferLine, List.getElem?_map, List.getElem?_range hp]
  rfl

/-- In a transfer of `k` words of `W` bits for a lane, the edge that stands at bit `b` of slot `k - 1 - j`, counted from the
last one, is that of bit `b` of word `j`: the words come in order, each with its most significant bit first. -/
theorem line_of_window_bit {k W j b : Nat} (hj : j < k) (hb : b < W) :
    k * W - 1 - ((k - 1 - j) * W + b) = j * W + (W - 1 - b) := by
  obtain ⟨i, rfl⟩ := Nat.exists_eq_add_of_lt hj
  have hslots : (j + i + 1) * W = j * W + i * W + W := by ring
  have hslot : j + i + 1 - 1 - j = i := by omega
  rw [hslots, hslot]
  omega

/-- What a channel receives from a transfer is what was transmitted for it (20_memory.md R46, 43_publisher.md R133). -/
theorem receivedBit_transferLines {c : Config} (hadc : AdcValid c.adc) (x : List Word) {ch b : Nat}
    (hch : ch < c.adc.channels) (hb : b < c.adc.width) :
    receivedBit c (transferLines c x) ch b = transmittedBit x ch b := by
  have hslot := Nat.mod_lt ch (wordsPerLane_pos hadc)
  have hgroup := group_lt_lanes hadc hch
  obtain ⟨hlane, hbit⟩ := deintStandard_lt (ch := ch) hadc hb
  have hline : ch % c.wordsPerLane * c.adc.width + (c.adc.width - 1 - b) < c.windowBits :=
    slot_bit_lt hslot (Nat.sub_one_sub_lt hb)
  obtain ⟨hdiv, hmod⟩ := slot_bit_div_mod (ch % c.wordsPerLane) (Nat.sub_one_sub_lt hb)
  have hreverse : (transferLines c x).reverse[(c.wordsPerLane - 1 - ch % c.wordsPerLane) * c.adc.width + b]?
      = some (transferLine c x (ch % c.wordsPerLane * c.adc.width + (c.adc.width - 1 - b))) := by
    rw [List.getElem?_reverse (by rw [transferLines_length]; exact hbit), transferLines_length, Config.windowBits,
      line_of_window_bit hslot hb]
    exact transferLines_getElem? c x hline
  have hchannel : c.adc.lanes - 1 - (c.adc.lanes - 1 - ch / c.wordsPerLane) = ch / c.wordsPerLane := by omega
  rw [receivedBit, List.getD_eq_getElem?_getD, hreverse]
  refine laneLevel_of_getElem? ((transferLine_getElem? c x _ hlane).trans (congrArg some ?_))
  rw [hdiv, hmod, hchannel, Nat.div_add_mod', Nat.sub_sub_self (Nat.le_sub_one_of_lt hb)]

/-- What a channel receives from a transfer of C words of W bits is its word (43_publisher.md R133). -/
theorem receivedWord_transferLines {c : Config} (hadc : AdcValid c.adc) {x : List Word} {ch : Nat} {w : Word}
    (hch : ch < c.adc.channels) (hw : x[ch]? = some w) (hwidth : w.width = c.adc.width) :
    receivedWord c (transferLines c x) ch = w := by
  refine word_ext (by simp [receivedWord, hwidth]) fun i => ?_
  rw [receivedWord, wordOfBits_getLsbD]
  by_cases hi : i < c.adc.width
  · simp [List.getD_eq_getElem?_getD, hi, receivedBit_transferLines hadc x hch hi, transmittedBit, hw]
  · have hge : w.width ≤ i := by omega
    simp [List.getD_eq_getElem?_getD, hi, BitVec.getLsbD_of_ge w.bits i hge]

/-- Of C words of W bits each channel has one. -/
theorem exists_word_of_areChannelWords {c : Config} {x : List Word} (h : areChannelWords c x = true) {ch : Nat}
    (hch : ch < c.adc.channels) : ∃ w, x[ch]? = some w ∧ w.width = c.adc.width := by
  obtain ⟨hlen, hwidths⟩ := Bool.and_eq_true_iff.1 h
  have hlt : ch < x.length := (eq_of_beq hlen).symm ▸ hch
  exact ⟨x[ch], List.getElem?_eq_getElem hlt, eq_of_beq (List.all_eq_true.1 hwidths _ (List.getElem_mem hlt))⟩

end Sys2Proof.Machine
end

section
/-! The window law, the default DEINT and the round trip (42_deserializer.md, 43_publisher.md sections 1 and 4). -/

namespace Sys2Proof.Safety

open Sys2Proof.Machine

/-- Settles O54: the lanes of a run are those of its return edges. -/
theorem lanesHoldTheLastEdges : Obligations.LanesHoldTheLastEdges := by
  rintro s ops hc hlegal ⟨hcount, hdepth, -⟩ hf
  obtain ⟨t, ht⟩ := exists_runOps_of_resetFree hc hlegal hf
  refine ⟨t, ht, fun p m hp hm => ?_⟩
  rw [sr_of_runOps ht hf]
  exact sampleBit_foldl_shiftLanes (returnEdges ops) ⟨hcount, hdepth⟩ hp hm

/-- Settles O56: the channels have received the transmitted words, and the update tick publishes their negations. -/
theorem transferPublishesTheNegatedWords : Obligations.TransferPublishesTheNegatedWords := by
  intro s t x ops start hc hdeint hs hx hf hxfer ht hu
  have hadc := hc.1
  have hcfg := cfg_of_runOps ht
  have hedges : s.cfg.windowBits ≤ (returnEdges ops).length := by
    rw [← transferLines_length s.cfg x]
    exact hxfer.length_le
  refine ⟨_, runOps_concat ht (hcfg ▸ hc) rfl (runOp_tick_of_update start hu), rfl, fun ch hch => ?_⟩
  obtain ⟨w, hw, hwidth⟩ := exists_word_of_areChannelWords hx hch
  refine ⟨w, hw, ?_⟩
  change (published t.cfg t.sr).getD ch .bot = _
  rw [hcfg, List.getD_eq_getElem?_getD, published_getElem? _ _ hch, Option.getD_some,
    publishWord_of_runOps hadc hdeint hs hf hedges ht,
    receivedWord_of_suffix hadc hxfer (transferLines_length s.cfg x), receivedWord_transferLines hadc hch hw hwidth]

/-- Settles O35: each clause of the formula is a lemma. -/
theorem defaultDeintCoversTheWindows : Obligations.DefaultDeintCoversTheWindows := by
  rintro c ⟨hadc, -⟩ hdeint
  refine ⟨fun ch b _ _ => deintAt_of_standard hdeint ch b, fun ch b p q _ hb h => ?_,
    fun ch b ch' b' hch hb hch' hb' h => ?_, fun p q hp hq => ?_⟩
  · cases (deintAt_of_standard hdeint ch b).symm.trans h
    obtain ⟨hlane, hbit⟩ := deintStandard_lt (ch := ch) hadc hb
    exact ⟨hlane, hbit, hbit.trans (windowBits_lt_srDepth hadc)⟩
  · rw [deintAt_of_standard hdeint, deintAt_of_standard hdeint, Option.some.injEq, Prod.mk.injEq] at h
    obtain ⟨hlane, hbit⟩ := h
    exact deintStandard_injective hadc hch hb hch' hb' hlane hbit
  · obtain ⟨ch, b, hch, hb, rfl, rfl⟩ := exists_deintStandard hadc hp hq
    exact ⟨ch, b, hch, hb, deintAt_of_standard hdeint ch b⟩

/-- Settles O55: the edges fill the windows, so each channel is published as the negation of what it received. -/
theorem enoughEdgesPublishDefinedWords : Obligations.EnoughEdgesPublishDefinedWords := by
  intro s t ops start hc hdeint hs hf hedges ht hu
  obtain ⟨u, hexec⟩ := exists_exec_rttUpdate start hu
  refine ⟨u, hexec, fun ch hch => ?_⟩
  rw [ReadIsDefined, dataAt_of_update_after_runOps hc.1 hdeint hs hf hedges ht hexec hch]
  rfl

/-- Settles O57: each channel of both runs has received the word of the common edges. -/
theorem equalTransfersPublishEqualWords : Obligations.EqualTransfersPublishEqualWords := by
  intro s s' t t' ops ops' edges start start' hc hdeint hcfg hs hs' hf hf' hlen hedges hedges' ht ht' hu hu'
  obtain ⟨u, hexec⟩ := exists_exec_rttUpdate start hu
  obtain ⟨u', hexec'⟩ := exists_exec_rttUpdate start' hu'
  have hadc := hc.1
  rw [← hcfg] at hf'
  have hdata' := @dataAt_of_update_after_runOps s' t' u' ops' start' (hcfg ▸ hadc) (hcfg ▸ hdeint) hs' hf'
    (hcfg ▸ hlen ▸ hedges'.length_le) ht' hexec'
  rw [hcfg] at hdata'
  refine ⟨u, u', hexec, hexec', fun ch hch => ⟨negW (receivedWord s.cfg edges ch), ?_, ?_⟩⟩
  · rw [dataAt_of_update_after_runOps hadc hdeint hs hf (hlen ▸ hedges.length_le) ht hexec hch,
      receivedWord_of_suffix hadc hedges hlen]
  · rw [hdata' hch, receivedWord_of_suffix hadc hedges' hlen]

end Sys2Proof.Safety
end

section
/-! The two values of `start` outside IDLE, TICK rows under other lane registers, and the levels of `sck` in a READ
(40_controller.md R91, 20_memory.md R47, 41_clock_synth.md R103, R105). -/

namespace Sys2Proof.Machine

open Sys2Proof.Safety

/-! ## `start` outside IDLE -/

/-- Outside IDLE no load depends on `start` (40_controller.md R71). -/
theorem countLoad_start (c : Config) {p : Phase} (hp : p ≠ .idle) (start start' : Bool) :
    countLoad c p start = countLoad c p start' := by
  cases p with
  | idle => exact absurd rfl hp
  | cnvh => rfl
  | conv => rfl
  | read => rfl
  | rtt => rfl

/-- Outside IDLE the composed tick does not depend on `start` (40_controller.md R91). -/
theorem controllerTick_start {s : State} (hp : s.phase ≠ .named .idle) (start start' : Bool)
    (samples : List (List (Lifted Bool))) : controllerTick start samples s = controllerTick start' samples s := by
  cases hs : s.phase with
  | unused c => rw [controllerTick_of_unused hs, controllerTick_of_unused hs]
  | named p =>
    have hne : p ≠ .idle := fun h => hp (hs.trans (congrArg _ h))
    rw [controllerTick_of_key start samples hs rfl, controllerTick_of_key start' samples hs rfl, State.afterTick,
      State.afterTick, nextPhase_start hne start start', countLoad_start s.cfg hne start start']

/-- Two operations of a block that do the same make the same step, refusals included. -/
theorem step_congr {s : State} {op op' : Op} {rest : List Op}
    (hw : op.wellFormed s.cfg.adc.lanes = op'.wellFormed s.cfg.adc.lanes)
    (h : runOp op (s.consume rest) = runOp op' (s.consume rest)) :
    step (s.consume (op :: rest)) = step (s.consume (op' :: rest)) := by
  cases hr : configRefusal s.cfg with
  | some r =>
    exact (step_of_configRefusal (s := s.consume (op :: rest)) hr).trans
      (step_of_configRefusal (s := s.consume (op' :: rest)) hr).symm
  | none =>
    have hc : ConfigValid s.cfg := (configRefusal_eq_none_iff _).1 hr
    cases hwell : op.wellFormed s.cfg.adc.lanes with
    | true =>
      exact (step_eq_runOp (s := s.consume (op :: rest)) hc rfl hwell).trans
        (h.trans (step_eq_runOp (s := s.consume (op' :: rest)) hc rfl (hw.symm.trans hwell)).symm)
    | false =>
      exact (step_of_not_wellFormed (s := s.consume (op :: rest)) hc rfl hwell).trans
        (step_of_not_wellFormed (s := s.consume (op' :: rest)) hc rfl (hw.symm.trans hwell)).symm

/-! ## TICK rows under other lane registers -/

/-- A TICK row is the row of a phase, a `start` and a `count_done` (30_encoding.md R60). -/
theorem exists_selectedRow_of_isTickRow {i : Instr} (h : isTickRow i = true) :
    ∃ p start done, i = selectedRow p start done := by
  cases i with
  | idleWait => exact ⟨.idle, false, true, rfl⟩
  | idleDrain => exact ⟨.idle, false, false, rfl⟩
  | idleStart => exact ⟨.idle, true, true, rfl⟩
  | idleStartEarly => exact ⟨.idle, true, false, rfl⟩
  | cnvhHold start => exact ⟨.cnvh, start, false, rfl⟩
  | cnvhEnd start => exact ⟨.cnvh, start, true, rfl⟩
  | convHold start => exact ⟨.conv, start, false, rfl⟩
  | convEnd start => exact ⟨.conv, start, true, rfl⟩
  | readShift start => exact ⟨.read, start, false, rfl⟩
  | readEnd start => exact ⟨.read, start, true, rfl⟩
  | rttHold start => exact ⟨.rtt, start, false, rfl⟩
  | rttUpdate start => exact ⟨.rtt, start, true, rfl⟩
  | rst => cases h
  | ret => cases h
  | coinc => cases h

/-- A TICK row that is no update leaves the lane registers as they are and does not read them (20_memory.md R53). -/
theorem exec_tickRow_of_lanes {s t : State} {i : Instr} (hi : isTickRow i = true) (hu : s.update = false)
    (h : exec i s = .next t) (sr : List (List (Lifted Bool))) :
    t.sr = s.sr ∧ t.cfg = s.cfg ∧ exec i { s with sr := sr } = .next { t with sr := sr } := by
  obtain ⟨p, start, done, rfl⟩ := exists_selectedRow_of_isTickRow hi
  rw [exec_selectedRow] at h
  obtain ⟨⟨hp, hd⟩, rfl⟩ := tickRow_eq_next_iff.1 h
  have hquiet : ¬ (p = .rtt ∧ done = true) := by
    rintro ⟨rfl, rfl⟩
    cases hu.symm.trans (update_iff.2 ⟨hp, countDone_iff.1 hd⟩)
  refine ⟨rfl, rfl, ?_⟩
  rw [exec_selectedRow, tickRow_of_key (s := { s with sr := sr }) _ hp hd]
  simp only [State.afterTick, hquiet, if_false]

/-! ## The waveform -/

/-- The low bits of SEED rotated for READ cycle `j` (41_clock_synth.md R105). -/
theorem rotl6_cycle_low_bits (v : BitVec 6) (j : Nat) :
    (rotl6 v (2 * (j % 3))).getLsbD 1 = v.getLsbD ((1 - 2 * (j : Int)) % 6).toNat
      ∧ (rotl6 v (2 * (j % 3))).getLsbD 0 = v.getLsbD ((-2 * (j : Int)) % 6).toNat := by
  have hturn : ∀ (r : Fin 3) (v : BitVec 6),
      (rotl6 v (2 * r.val)).getLsbD 1 = v.getLsbD ((1 - 2 * (r.val : Int)) % 6).toNat
        ∧ (rotl6 v (2 * r.val)).getLsbD 0 = v.getLsbD ((-2 * (r.val : Int)) % 6).toNat := by decide
  have hone : (1 - 2 * (j : Int)) % 6 = (1 - 2 * ((j % 3 : Nat) : Int)) % 6 := by omega
  have hzero : (-2 * (j : Int)) % 6 = (-2 * ((j % 3 : Nat) : Int)) % 6 := by omega
  rw [hone, hzero]
  exact hturn ⟨j % 3, Nat.mod_lt _ (by decide)⟩ v

/-- The low bits of the default SEED in READ cycle `j`: 00, 11, 10 in turn (41_clock_synth.md, waveform of a READ phase). -/
theorem rotl6_cycle_low_bits_of_defaultSeed (j : Nat) :
    (rotl6 0b111000#6 (2 * (j % 3))).getLsbD 1 = decide (j % 3 ≠ 0)
      ∧ (rotl6 0b111000#6 (2 * (j % 3))).getLsbD 0 = decide (j % 3 = 1) := by
  have hturn : ∀ r : Fin 3, (rotl6 0b111000#6 (2 * r.val)).getLsbD 1 = decide (r.val ≠ 0)
      ∧ (rotl6 0b111000#6 (2 * r.val)).getLsbD 0 = decide (r.val = 1) := by decide
  exact hturn ⟨j % 3, Nat.mod_lt _ (by decide)⟩

/-- A rotation keeps the number of ones (41_clock_synth.md R100). -/
theorem seedOk_rotl6_cycle (v : BitVec 6) (j : Nat) : seedOk (rotl6 v (2 * (j % 3))) = seedOk v := by
  have hturn : ∀ (r : Fin 3) (v : BitVec 6), seedOk (rotl6 v (2 * r.val)) = seedOk v := by decide
  exact hturn ⟨j % 3, Nat.mod_lt _ (by decide)⟩ v

/-- On a block that keeps the phase invariant `clk_sr` has three ones (41_clock_synth.md R100, R105). -/
theorem seedOk_clkSr {s : State} (hseed : seedOk s.cfg.seed = true) (hs : ClockPhase s) : seedOk s.clkSr = true := by
  obtain ⟨hout, hin⟩ := hs
  by_cases hp : s.phase = .named .read
  · obtain ⟨-, hclk⟩ := hin hp
    rw [hclk, seedOk_rotl6_cycle, hseed]
  · rw [hout hp, hseed]

end Sys2Proof.Machine
end

section
/-! `start` outside IDLE, the independence of ticks and return edges, and the bit-clock waveform (40_controller.md R91,
20_memory.md section 2, 41_clock_synth.md). -/

namespace Sys2Proof.Safety

open Sys2Proof.Machine

/-- Settles O27: the composed tick is the same for both values of `start`, so the steps are. -/
theorem startIsIgnoredOutsideIdle : Obligations.StartIsIgnoredOutsideIdle := by
  intro s rest sdo hp
  refine ⟨step_congr rfl (controllerTick_start (s := s.consume rest) hp _ _ _), step_congr rfl ?_⟩
  change coincTick true sdo (s.consume rest) = coincTick false sdo (s.consume rest)
  rw [coincTick, coincTick, controllerTick_start (s := s.consume rest) hp true false]

/-- Settles O52: outside an update cycle the row's result has the lanes as an argument. -/
theorem ticksReadNoLaneRegister : Obligations.TicksReadNoLaneRegister := by
  intro s t i sr hi hu h
  obtain ⟨-, -, hother⟩ := exec_tickRow_of_lanes hi hu h sr
  exact hother

/-- Settles O53: the common state has the row's registers and the shifted lanes. -/
theorem tickAndReturnEdgeCommute : Obligations.TickAndReturnEdgeCommute := by
  intro s t i sdo hi hu hlen h
  obtain ⟨hsr, hcfg, hother⟩ := exec_tickRow_of_lanes hi hu h (shiftLanes s.sr sdo)
  refine ⟨s.returnEdge sdo, t.returnEdge sdo, exec_ret_of_length hlen, ?_, exec_ret_of_length (by rw [hcfg]; exact hlen)⟩
  rw [State.returnEdge, State.returnEdge, hsr]
  exact hother

/-- Settles O32: the phase invariant gives the register of each cycle, whose low bits are those of SEED rotated. -/
theorem sckWaveformInRead : Obligations.SckWaveformInRead := by
  rintro s j ⟨-, hseed, -⟩ hclock
  have hones := seedOk_clkSr hseed hclock
  obtain ⟨hout, hin⟩ := hclock
  refine ⟨fun hp hj => ?_, fun hp => ?_, hones⟩
  · obtain ⟨-, hclk⟩ := hin hp
    have hcycle : s.cfg.readDuration - 1 - s.count = j := by omega
    rw [hcycle] at hclk
    obtain ⟨hone, hzero⟩ := rotl6_cycle_low_bits s.cfg.seed j
    obtain ⟨hone', hzero'⟩ := rotl6_cycle_low_bits_of_defaultSeed j
    refine ⟨fun hddr => ⟨?_, fun hdefault => ?_⟩, fun hddr => ⟨?_, fun hdefault => ?_⟩⟩
    · rw [sck_of_hiFirst hddr, hclk, hone, hzero]
    · rw [sck_of_hiFirst hddr, hclk, hdefault, hone', hzero']
    · rw [sck_of_loFirst hddr, hclk, hone, hzero]
    · rw [sck_of_loFirst hddr, hclk, hdefault, hone', hzero']
  · have hclk := hout hp
    refine ⟨fun hddr => ?_, fun hddr => ?_, fun hdefault => ?_⟩
    · rw [sck_of_hiFirst hddr, hclk]
    · rw [sck_of_loFirst hddr, hclk]
    · rw [State.sck, hclk, hdefault, ddrLevels_defaultSeed]

end Sys2Proof.Safety
end

section
/-! The encoder and the decoder as inverses of each other, on the words of TICK rows, RST, RET and COINC (30_encoding.md R57 to
R64). -/

namespace Sys2Proof.Machine

open Sys2Proof.Safety

/-! ## Decoding an encoding -/

/-- The word of a TICK row is that of its key (30_encoding.md R60). -/
theorem encode_selectedRow (code : PhaseCode) (p : Phase) (start done : Bool) :
    encode code (selectedRow p start done) = keyWord (transitionKey false (phaseCode code p) start done) := by
  cases p with
  | idle => cases start <;> cases done <;> rfl
  | cnvh => cases done <;> rfl
  | conv => cases done <;> rfl
  | read => cases done <;> rfl
  | rtt => cases done <;> rfl

/-- The word of a TICK row decodes to it (30_encoding.md R60, R64). -/
theorem decode_encode_of_isTickRow {code : PhaseCode} (hcode : phaseCodeOk code = true) {i : Instr}
    (hi : isTickRow i = true) (lanes : Nat) (after : List Byte) :
    decode code lanes (encode code i ++ after) = .ok (i, after) := by
  obtain ⟨p, start, done, rfl⟩ := exists_selectedRow_of_isTickRow hi
  rw [encode_selectedRow]
  exact decode_keyWord_of_ok (decodeKey_of_phase hcode p start done) lanes after

/-- A key with `rst = 1` selects RST, given as any six bits (30_encoding.md R57). -/
theorem decodeKey_of_rst_bit (code : PhaseCode) {key : BitVec 6} (h : key.getLsbD 5 = true) :
    decodeKey code key = .ok .rst := by
  rw [← transitionKey_of_fields key, h]
  exact decodeKey_rst code _ _ _

/-- An instruction that is no TICK row is RST, RET or COINC. -/
theorem isTickRow_or (i : Instr) :
    isTickRow i = true ∨ i = .rst ∨ (∃ sdo, i = .ret sdo) ∨ ∃ rst start sdo, i = .coinc rst start sdo := by
  cases i with
  | rst => exact .inr (.inl rfl)
  | ret sdo => exact .inr (.inr (.inl ⟨sdo, rfl⟩))
  | coinc rst start sdo => exact .inr (.inr (.inr ⟨rst, start, sdo, rfl⟩))
  | _ => exact .inl rfl

/-! ## Encoding what was decoded -/

/-- A row that leaves `start` open is selected by the keys that encode to its instruction (30_encoding.md R57). -/
theorem keyWord_of_selects_start {key : BitVec 6} {phase : BitVec 3} {done : Bool} {build : Bool → Instr}
    (h : (KeyRow.mk (transitionKey false phase false done) 0b111101#6 build).selects key = true) :
    keyWord (transitionKey false phase (key.getLsbD 1) done) = keyWord key := by
  have hkey := transitionKey_of_fields key
  rw [KeyRow.selects, ← hkey] at h
  simp only [transitionKey_and_mask_start, beq_iff_eq, transitionKey_eq_iff] at h
  obtain ⟨hrst, hphase, -, hdone⟩ := h
  rw [← hrst, ← hphase, ← hdone, hkey]

/-- A row that fixes every bit is selected by its own key alone (30_encoding.md R57). -/
theorem keyWord_of_selects_all {key pattern : BitVec 6} {build : Bool → Instr}
    (h : (KeyRow.mk pattern 0b111111#6 build).selects key = true) : keyWord pattern = keyWord key := by
  rw [KeyRow.selects, and_mask_all, beq_iff_eq] at h
  rw [h]

/-- The instruction of a selected row is well formed, and but for RST it encodes to the word of the key. -/
theorem encode_of_selects {code : PhaseCode} {row : KeyRow} {key : BitVec 6} (hmem : row ∈ keyRows code)
    (hsel : row.selects key = true) (lanes : Nat) :
    (row.build (key.getLsbD 1)).wellFormed lanes = true
      ∧ (row.build (key.getLsbD 1) ≠ .rst → encode code (row.build (key.getLsbD 1)) = keyWord key) := by
  simp only [keyRows, List.mem_cons, List.not_mem_nil, or_false] at hmem
  rcases hmem with rfl | rfl | rfl | rfl | rfl | rfl | rfl | rfl | rfl | rfl | rfl | rfl | rfl
  iterate 4 exact ⟨rfl, fun _ => keyWord_of_selects_all hsel⟩
  iterate 8 exact ⟨rfl, fun _ => keyWord_of_selects_start hsel⟩
  · exact ⟨rfl, fun hne => absurd rfl hne⟩

/-- What a key decodes to is well formed, and but for RST it encodes to the word of the key. -/
theorem encode_of_decodeKey {code : PhaseCode} {key : BitVec 6} {i : Instr} (h : decodeKey code key = .ok i) (lanes : Nat) :
    i.wellFormed lanes = true ∧ (i ≠ .rst → encode code i = keyWord key) := by
  unfold decodeKey at h
  split at h
  · next row hrow =>
    have hsel : row.selects key = true := by simpa using List.find?_some hrow
    cases h
    exact encode_of_selects (List.mem_of_find?_eq_some hrow) hsel lanes
  · cases h

/-- The operand bits of a COINC whose unused bits are zero are those of its `rst` and `start` (notes/assumptions/7.md). -/
theorem transitionKey_of_coincReserved {low : BitVec 6} (h : low &&& coincReserved = 0#6) :
    transitionKey (low.getLsbD 5) 0b000#3 (low.getLsbD 1) false = low := by
  revert low; decide

/-- All that the decoder can read: the key of a controller edge, a RET, or a COINC. -/
theorem decode_cons_eq_ok_cases {code : PhaseCode} {lanes : Nat} {b : Byte} {rest after : List Byte} {i : Instr}
    (h : decode code lanes (b :: rest) = .ok (i, after)) :
    (b.extractLsb' 6 2 = edgesController ∧ decodeKey code (b.extractLsb' 0 6) = .ok i ∧ after = rest)
      ∨ (b.extractLsb' 6 2 = edgesReturn ∧ b.extractLsb' 0 6 = 0#6
          ∧ ∃ sdo, decodeSdo lanes rest = .ok (sdo, after) ∧ i = .ret sdo)
      ∨ (b.extractLsb' 6 2 = edgesBoth ∧ b.extractLsb' 0 6 &&& coincReserved = 0#6
          ∧ ∃ sdo, decodeSdo lanes rest = .ok (sdo, after) ∧ i = .coinc (b.getLsbD 5) (b.getLsbD 1) sdo) := by
  rw [decode] at h
  split at h
  · next hedges =>
    split at h
    · next j hj => cases h; exact .inl ⟨hedges, hj, rfl⟩
    · cases h
  · split at h
    · next hedges =>
      split at h
      · next hlow =>
        split at h
        · next sdo rest' hsdo => cases h; exact .inr (.inl ⟨hedges, hlow, sdo, hsdo, rfl⟩)
        · cases h
      · cases h
    · split at h
      · next hedges =>
        split at h
        · next hlow =>
          split at h
          · next sdo rest' hsdo => cases h; exact .inr (.inr ⟨hedges, hlow, sdo, hsdo, rfl⟩)
          · cases h
        · cases h
      · cases h

/-- The two operand bits of a COINC's first byte lie among its low bits. -/
theorem getLsbD_low (b : Byte) :
    (b.extractLsb' 0 6).getLsbD 5 = b.getLsbD 5 ∧ (b.extractLsb' 0 6).getLsbD 1 = b.getLsbD 1 := by
  revert b; decide

end Sys2Proof.Machine
end

section
/-! The decoder and the encoder (30_encoding.md sections 1 to 4). -/

namespace Sys2Proof.Safety

open Sys2Proof.Machine

/-- Settles O21, by the kind of instruction: a TICK row, RST, RET or COINC. -/
theorem decodeOfEncodeIsTheInstruction : Obligations.DecodeOfEncodeIsTheInstruction := by
  intro code lanes i after hcode hw
  obtain htick | rfl | ⟨sdo, rfl⟩ | ⟨rst, start, sdo, rfl⟩ := isTickRow_or i
  · exact decode_encode_of_isTickRow hcode htick lanes after
  · exact decode_keyWord_of_ok (decodeKey_of_rst_bit code rfl) lanes after
  · exact decode_retWord code after (eq_of_beq hw)
  · exact decode_coincWord code rst start after (eq_of_beq hw)

/-- Settles O22, by what the decoder can read: each first byte is its fields, and the operand bytes are the packed levels. -/
theorem encodeOfDecodeIsTheWord : Obligations.EncodeOfDecodeIsTheWord := by
  intro code lanes bytes after i h
  cases bytes with
  | nil => cases h
  | cons b rest =>
    have hb := formatByte_of_fields b
    obtain ⟨hedges, hkey, rfl⟩ | ⟨hedges, hlow, sdo, hsdo, rfl⟩ | ⟨hedges, hlow, sdo, hsdo, rfl⟩ :=
      decode_cons_eq_ok_cases h
    · obtain ⟨hw, hencode⟩ := encode_of_decodeKey hkey lanes
      refine ⟨hw, fun hne => ?_⟩
      rw [hencode hne, keyWord, ← hedges, hb]
      rfl
    · obtain ⟨hlen, rfl⟩ := eq_of_decodeSdo_eq_ok hsdo
      refine ⟨beq_iff_eq.2 hlen, fun _ => ?_⟩
      rw [encode, retWord, ← hedges, ← hlow, hb]
      rfl
    · obtain ⟨hlen, rfl⟩ := eq_of_decodeSdo_eq_ok hsdo
      obtain ⟨hrst, hstart⟩ := getLsbD_low b
      refine ⟨beq_iff_eq.2 hlen, fun _ => ?_⟩
      rw [encode, coincWord, ← hedges, ← hrst, ← hstart, transitionKey_of_coincReserved hlow, hb]
      rfl

end Sys2Proof.Safety
end

section
/-! The transfer as a stimulus, and the lines of the stimulus text (30_encoding.md R66, R67). -/

namespace Sys2Proof.Machine

open Sys2Proof.Safety

/-! ## `send` -/

/-- The return edges of two traces in a row. -/
theorem returnEdges_append (ops more : List Op) : returnEdges (ops ++ more) = returnEdges ops ++ returnEdges more :=
  List.filterMap_append

/-- `send` has `k * W` lines (30_encoding.md R67). -/
theorem send_length (c : Config) (x : List Word) : (send c x).length = c.windowBits := by
  rw [send, List.length_map, transferLines_length]

/-- The return edges of `send` are the transfer (30_encoding.md R67, 20_memory.md R46). -/
theorem returnEdges_send (c : Config) (x : List Word) : returnEdges (send c x) = transferLines c x := by
  rw [returnEdges, send, List.filterMap_map]
  exact List.filterMap_some

/-- A line of a transfer has one level for each lane. -/
theorem transferLine_length (c : Config) (x : List Word) (m : Nat) : (transferLine c x m).length = c.adc.lanes := by
  simp [transferLine]

/-- `send` is made of return edges of the block, and has no reset. -/
theorem resetFree_send (c : Config) (x : List Word) : resetFree c (send c x) = true := by
  refine List.all_eq_true.2 fun op hop => ?_
  obtain ⟨sdo, hsdo, rfl⟩ := List.mem_map.1 hop
  obtain ⟨m, -, rfl⟩ := List.mem_map.1 hsdo
  simp [Op.wellFormed, sdoFits, transferLine_length, isReset]

/-- Line `m` of `send` is line `m` of the transfer. -/
theorem send_getElem? (c : Config) (x : List Word) {m : Nat} (hm : m < c.windowBits) :
    (send c x)[m]? = some (.ret (transferLine c x m)) := by
  rw [send, List.getElem?_map, transferLines_getElem? c x hm]
  rfl

/-- A bit of a transmitted word. -/
theorem transmittedBit_of_getElem? {x : List Word} {ch : Nat} {w : Word} (h : x[ch]? = some w) (b : Nat) :
    transmittedBit x ch b = w.bits.getLsbD b := by
  rw [transmittedBit, h]

/-! ## Lines -/

/-- A word of a line: neither empty nor with a space or a comment in it. -/
abbrev PlainToken (w : List Char) : Prop := w ≠ [] ∧ ∀ ch ∈ w, ch ≠ ' ' ∧ ch ≠ ';'

/-- A line of one word. -/
theorem tokens_of_one {w : List Char} (hw : PlainToken w) : tokensFrom [] (stripComment w) = [w] := by
  obtain ⟨hne, hchars⟩ := hw
  rw [stripComment_of_plain fun ch hch => (hchars ch hch).2, tokensFrom_word w (fun ch hch => (hchars ch hch).1)]
  simp [hne]

/-- A word and a space before more words are a token of the line. -/
theorem tokens_cons {w line : List Char} (hw : PlainToken w) :
    tokensFrom [] (stripComment (w ++ ' ' :: line)) = w :: tokensFrom [] (stripComment line) := by
  obtain ⟨hne, hchars⟩ := hw
  have hstrip : stripComment (w ++ ' ' :: line) = w ++ ' ' :: stripComment line := by
    have hplain : ∀ ch ∈ w, (ch != ';') = true := fun ch hch => by simpa using (hchars ch hch).2
    rw [stripComment, List.takeWhile_append_of_pos hplain, List.takeWhile_cons_of_pos (by decide)]
    rfl
  rw [hstrip, tokensFrom_word_space w _ (fun ch hch => (hchars ch hch).1) [] (by simpa using hne)]
  simp

/-- The keywords are words of a line. -/
theorem plainToken_keywords :
    PlainToken kwTick ∧ PlainToken kwStart ∧ PlainToken kwReset ∧ PlainToken kwRet ∧ PlainToken kwCoinc := by
  refine ⟨⟨by decide, ?_⟩, ⟨by decide, ?_⟩, ⟨by decide, ?_⟩, ⟨by decide, ?_⟩, by decide, ?_⟩ <;>
    exact keywords_plain _ (by simp)

/-- The digits of at least one lane are a word of a line. -/
theorem plainToken_levelDigits {sdo : List Bool} (h : sdo ≠ []) : PlainToken (sdo.map levelDigit) :=
  ⟨by simpa using h, levelDigits_plain sdo⟩

/-- The digits of an operand of the block read back (30_encoding.md R59, R66). -/
theorem readSdo_levelDigits {lanes : Nat} {sdo : List Bool} (h : sdo.length = lanes) :
    readSdo lanes (sdo.map levelDigit) = some sdo := by
  rw [readSdo, readLevels_map_levelDigit]
  exact if_pos h

/-- What is made of the digits of an operand of the block is made of the operand. -/
theorem map_readSdo_levelDigits {lanes : Nat} {sdo : List Bool} (h : sdo.length = lanes) (f : List Bool → List Op) :
    (readSdo lanes (sdo.map levelDigit)).map f = some (f sdo) := by
  rw [readSdo_levelDigits h]
  rfl

/-- What a line of one word reads as. -/
theorem readLine_of_one (c : Config) {head : List Char} (h : PlainToken head) : readLine c head = readPlain c head := by
  rw [readLine, tokens_of_one h]

/-- What a line of two words reads as. -/
theorem readLine_of_two (c : Config) {head operand : List Char} (h : PlainToken head) (ho : PlainToken operand) :
    readLine c (head ++ ' ' :: operand) = readWithOperand c head operand := by
  rw [readLine, tokens_cons h, tokens_of_one ho]

/-- What a line of three words beginning with `coinc` reads as. -/
theorem readLine_of_coinc (c : Config) {part digits : List Char} (hp : PlainToken part) (hd : PlainToken digits) :
    readLine c (kwCoinc ++ ' ' :: (part ++ ' ' :: digits)) = readCoinc c part digits := by
  obtain ⟨-, -, -, -, hcoinc⟩ := plainToken_keywords
  rw [readLine, tokens_cons hcoinc, tokens_cons hp, tokens_of_one hd]
  exact if_pos rfl

/-- A `tick` line reads back, with and without `start` (30_encoding.md R66). -/
theorem readLine_tick (c : Config) (start : Bool) : readLine c (writeLine (.tick start)) = some [.tick start] := by
  obtain ⟨htick, hstart, -⟩ := plainToken_keywords
  cases start with
  | false => exact readLine_of_one c htick
  | true => exact readLine_of_two c htick hstart

/-- A `ret` line reads back (30_encoding.md R66). -/
theorem readLine_ret {c : Config} {sdo : List Bool} (hne : sdo ≠ []) (hlen : sdo.length = c.adc.lanes) :
    readLine c (writeLine (.ret sdo)) = some [.ret sdo] := by
  obtain ⟨-, -, -, hret, -⟩ := plainToken_keywords
  exact (readLine_of_two c hret (plainToken_levelDigits hne)).trans (map_readSdo_levelDigits hlen fun sdo => [.ret sdo])

/-- A `coinc` line reads back in each of its three forms (30_encoding.md R66). -/
theorem readLine_coinc {c : Config} {rst start : Bool} {sdo : List Bool} (hne : sdo ≠ [])
    (hlen : sdo.length = c.adc.lanes) (hboth : ¬ (rst = true ∧ start = true)) :
    readLine c (writeLine (.coinc rst start sdo)) = some [.coinc rst start sdo] := by
  obtain ⟨-, hstart, hreset, -, hcoinc⟩ := plainToken_keywords
  have hdigits := plainToken_levelDigits hne
  cases rst with
  | true => cases start with
    | true => exact absurd ⟨rfl, rfl⟩ hboth
    | false =>
      exact (readLine_of_coinc c hreset hdigits).trans
        (map_readSdo_levelDigits hlen fun sdo => [.coinc true false sdo])
  | false => cases start with
    | true =>
      exact (readLine_of_coinc c hstart hdigits).trans
        (map_readSdo_levelDigits hlen fun sdo => [.coinc false true sdo])
    | false =>
      exact (readLine_of_two c hcoinc hdigits).trans
        (map_readSdo_levelDigits hlen fun sdo => [.coinc false false sdo])

end Sys2Proof.Machine
end

section
/-! The pseudo-operation `send` and the lines of the stimulus (30_encoding.md section 5). -/

namespace Sys2Proof.Safety

open Sys2Proof.Machine

/-- Settles O58: the return edges of `send` are the transfer, and none comes after them. -/
theorem sendMeetsTheTransferPremise : Obligations.SendMeetsTheTransferPremise := by
  intro c x before after hafter
  refine ⟨send_length c x, resetFree_send c x, ⟨returnEdges before, ?_⟩, fun m hm =>
    ⟨transferLine c x m, send_getElem? c x hm, transferLine_length c x m, fun p w hp hw => ?_⟩⟩
  · rw [returnEdges_append, returnEdges_append, returnEdges_send, hafter, List.append_nil]
  · rw [transferLine_getElem? c x m hp, transmittedBit_of_getElem? hw]

/-- Settles O60, by the kind of operation. -/
theorem stimulusLinesReadBack : Obligations.StimulusLinesReadBack := by
  intro c op hlanes hw hnot
  cases op with
  | tick start => exact readLine_tick c start
  | rst =>
    obtain ⟨-, -, hreset, -⟩ := plainToken_keywords
    exact readLine_of_one c hreset
  | ret sdo =>
    have hlen : sdo.length = c.adc.lanes := eq_of_beq hw
    exact readLine_ret (List.ne_nil_of_length_pos (hlen ▸ hlanes)) hlen
  | coinc rst start sdo =>
    have hlen : sdo.length = c.adc.lanes := eq_of_beq hw
    refine readLine_coinc (List.ne_nil_of_length_pos (hlen ▸ hlanes)) hlen ?_
    rintro ⟨rfl, rfl⟩
    exact hnot sdo rfl

end Sys2Proof.Safety
end

section
/-! Single rows, keys and stops: the counting rows, the rows that a key selects, the refusals of the fetch, and the words at the
edges of their range (40_controller.md section 2, 30_encoding.md R61, R64, 43_publisher.md R128). -/

namespace Sys2Proof.Machine

open Sys2Proof.Safety

/-! ## Rows that count down -/

/-- A row that holds its phase and counts down writes the counter alone (40_controller.md R72). -/
theorem tickRow_hold {s : State} {p : Phase} (hp : s.phase = .named p) (hn : s.count ≠ 0) :
    tickRow p false s (s.enter p).decCount = .next { s with count := s.count - 1 } := by
  rw [tickRow_of_key _ hp (countDone_false_iff.2 hn), enter_of_phase hp]
  rfl

/-- Flags that the phase settles, given the phase (40_controller.md R86 to R89). -/
theorem flags_of_phase {s : State} {p : Phase} (hp : s.phase = .named p) :
    s.done = decide (p = .idle) ∧ s.cnv = decide (p = .cnvh) ∧ s.reading = decide (p = .read ∨ p = .rtt)
      ∧ s.sckEn = decide (p = .read) := by
  refine ⟨?_, ?_, ?_, ?_⟩ <;> rw [Bool.eq_iff_iff, decide_eq_true_iff]
  · rw [done_iff, hp, PhaseReg.named.injEq]
  · rw [cnv_iff, hp, PhaseReg.named.injEq]
  · rw [reading_iff, hp, PhaseReg.named.injEq, PhaseReg.named.injEq]
  · rw [sckEn_iff, hp, PhaseReg.named.injEq]

/-! ## Keys -/

/-- A key with `rst = 0` and the code of no phase selects no row, given as any six bits (30_encoding.md R61). -/
theorem decodeKey_of_code_of_no_phase {code : PhaseCode} {key : BitVec 6} (hrst : key.getLsbD 5 = false)
    (h : ∀ p, key.extractLsb' 2 3 ≠ phaseCode code p) : decodeKey code key = .error .phaseIllegal := by
  rw [← transitionKey_of_fields key, hrst]
  exact decodeKey_of_no_phase h _ _

/-- Under an injective `PHASE_CODE` two codes are equal exactly when their phases are (30_encoding.md R65). -/
theorem phaseCode_beq {code : PhaseCode} (h : phaseCodeOk code = true) (p q : Phase) :
    (phaseCode code p == phaseCode code q) = decide (p = q) := by
  rw [Bool.eq_iff_iff, beq_iff_eq, decide_eq_true_iff]
  exact ⟨phaseCode_injective h, congrArg _⟩

/-- Exactly one row of the map is selected by a key of a phase, under an injective `PHASE_CODE` (30_encoding.md R64). -/
theorem filter_selects_length {code : PhaseCode} (h : phaseCodeOk code = true) (p : Phase) (start done : Bool) :
    ((keyRows code).filter fun row => row.selects (transitionKey false (phaseCode code p) start done)).length = 1 := by
  have hidle : (phaseCode code p == code.idle) = decide (p = .idle) := phaseCode_beq h p .idle
  have hcnvh : (phaseCode code p == code.cnvh) = decide (p = .cnvh) := phaseCode_beq h p .cnvh
  have hconv : (phaseCode code p == code.conv) = decide (p = .conv) := phaseCode_beq h p .conv
  have hread : (phaseCode code p == code.read) = decide (p = .read) := phaseCode_beq h p .read
  have hrtt : (phaseCode code p == code.rtt) = decide (p = .rtt) := phaseCode_beq h p .rtt
  simp only [keyRows, KeyRow.selects, List.filter, transitionKey_and_mask_start, transitionKey_and_mask_rst, and_mask_all,
    transitionKey_beq, hidle, hcnvh, hconv, hread, hrtt]
  cases p with
  | idle => cases start <;> cases done <;> rfl
  | cnvh => cases done <;> rfl
  | conv => cases done <;> rfl
  | read => cases done <;> rfl
  | rtt => cases done <;> rfl

/-- The codes of the phases under the default `PHASE_CODE` are 000 to 100 (92_eei_decisions.md D4). -/
theorem phaseCode_default_le (p : Phase) : phaseCode {} p ≤ 4#3 := by
  cases p <;> decide

/-! ## Stops -/

/-- An illegal phase is an unused code (30_encoding.md R61). -/
theorem legalPhase_eq_false_iff {r : PhaseReg} : legalPhase r = false ↔ ∃ c, r = .unused c := by
  cases r <;> simp [legalPhase]

/-- Parameters that are not valid are refused with their violated codes (60_exceptions.md R136). -/
theorem configRefusal_of_not_adcValid {c : Config} (h : ¬ AdcValid c.adc) :
    violations (adcTuple c.adc) ≠ [] ∧ configRefusal c = some (.configError (violations (adcTuple c.adc))) := by
  have hne : violations (adcTuple c.adc) ≠ [] := fun hnil => h ((violations_adcTuple c.adc).1 hnil)
  exact ⟨hne, if_pos hne⟩

/-- With valid parameters the first bad one of SEED, DEINT, PHASE_CODE and CW gives the refusal (notes/assumptions/4.md). -/
theorem configRefusal_of_adcValid {c : Config} (h : AdcValid c.adc) :
    configRefusal c =
      if seedOk c.seed = false then some .seedPattern
      else if deintOk c = false then some .deintMap
      else if phaseCodeOk c.phaseCode = false then some .phaseCode
      else if counterWidthOk c = false then some .counterWidth
      else none :=
  if_neg (not_not_intro ((violations_adcTuple c.adc).2 h))

/-- The TICK part of a COINC faults in an unused phase code (notes/assumptions/22.md). -/
theorem coincTick_of_unused {s : State} {c : Fin 3} (hp : s.phase = .unused c) (start : Bool) (sdo : List Bool) :
    coincTick start sdo s = .fault .phaseIllegal := by
  rw [coincTick, controllerTick_of_unused hp]

/-- An `sdo` of another length is refused by name (30_encoding.md R59). -/
theorem withSdo_of_length_ne {s : State} {sdo : List Bool} (r : StepResult) (h : sdo.length ≠ s.cfg.adc.lanes) :
    withSdo s sdo r = .refused .laneCount :=
  if_neg (by simpa [sdoFits] using h)

/-- The most negative word is the least number of its width (43_publisher.md R128). -/
theorem bits_eq_intMin {w : Word} (hwidth : 1 ≤ w.width) (h : w.toNat = 2 ^ (w.width - 1)) :
    w.bits = BitVec.intMin w.width :=
  BitVec.eq_of_toNat_eq (h.trans (BitVec.toNat_intMin_of_pos hwidth).symm)

end Sys2Proof.Machine
end

section
/-! The rows that count down, the map of keys, the stops, and single words (40_controller.md section 2, 30_encoding.md,
20_memory.md section 1, 43_publisher.md section 2). -/

namespace Sys2Proof.Safety

open Sys2Proof.Machine

/-- Settles O4: the row enters CNVH and decrements what the counter held. -/
theorem idleStartEarlyLosesTheLoad : Obligations.IdleStartEarlyLosesTheLoad := by
  intro s hp hn
  have hd := countDone_false_iff.2 hn
  refine ⟨decodeKey_key_of_idle hp hd true, fun hcode => ?_, done_iff.2 hp, (s.enter .cnvh).decCount,
    tickRow_of_key _ hp hd, rfl, rfl, rfl⟩
  rw [key_of_phase hp hd, hcode]
  rfl

/-- Settles O5: the row holds CNVH and counts down. -/
theorem cnvhHoldDecrementsTheCounter : Obligations.CnvhHoldDecrementsTheCounter := by
  intro s start hp hn
  have hd := countDone_false_iff.2 hn
  obtain ⟨hdone, hcnv, hreading, -⟩ := flags_of_phase hp
  exact ⟨fun hcode => decodeKey_key_of_phase hcode hp hd start, fun hcode => key_and_mask_start hcode hp hd start,
    tickRow_hold hp hn, hcnv, hdone, hreading⟩

/-- Settles O7: the row holds CONV and counts down. -/
theorem convHoldDecrementsTheCounter : Obligations.ConvHoldDecrementsTheCounter := by
  intro s start hp hn
  have hd := countDone_false_iff.2 hn
  obtain ⟨hdone, hcnv, hreading, -⟩ := flags_of_phase hp
  exact ⟨fun hcode => decodeKey_key_of_phase hcode hp hd start, fun hcode => key_and_mask_start hcode hp hd start,
    tickRow_hold hp hn, hdone, hcnv, hreading⟩

/-- Settles O9: the row counts down in READ and rotates. -/
theorem readShiftRotatesTheClock : Obligations.ReadShiftRotatesTheClock := by
  intro s start hp hn
  have hd := countDone_false_iff.2 hn
  obtain ⟨hdone, -, hreading, hsck⟩ := flags_of_phase hp
  refine ⟨fun hcode => decodeKey_key_of_phase hcode hp hd start, fun hcode => key_and_mask_start hcode hp hd start, ?_,
    hreading, hsck, hdone⟩
  rw [← rotl6_two_eq_append]
  refine (tickRow_of_key _ hp hd).trans ?_
  rw [enter_of_phase hp]
  rfl

/-- Settles O11: the row holds RTT and counts down; `update` waits for the counter. -/
theorem rttHoldDecrementsTheCounter : Obligations.RttHoldDecrementsTheCounter := by
  intro s start hp hn
  have hd := countDone_false_iff.2 hn
  obtain ⟨-, -, hreading, hsck⟩ := flags_of_phase hp
  refine ⟨fun hcode => decodeKey_key_of_phase hcode hp hd start, fun hcode => key_and_mask_start hcode hp hd start,
    tickRow_hold hp hn, hreading, hsck, ?_⟩
  rw [← Bool.not_eq_true, update_iff]
  exact fun ⟨_, hzero⟩ => hn hzero

/-- Settles O16: both meanings check their operand first. -/
theorem otherLaneCountsAreNoOperand : Obligations.OtherLaneCountsAreNoOperand := fun _ _ _ _ hlen =>
  ⟨withSdo_of_length_ne _ hlen, withSdo_of_length_ne _ hlen⟩

/-- Settles O19: the default code is injective, so each key of a phase selects that phase's row, and a code above 100 is that of
no phase. -/
theorem keysSelectTheirRows : Obligations.KeysSelectTheirRows := by
  have hkey := decodeKey_of_phase (code := {}) rfl
  refine ⟨hkey .idle false true, hkey .idle false false, hkey .idle true true, hkey .idle true false,
    hkey .cnvh false false, hkey .cnvh true false, hkey .cnvh false true, hkey .cnvh true true,
    hkey .conv false false, hkey .conv true false, hkey .conv false true, hkey .conv true true,
    hkey .read false false, hkey .read true false, hkey .read false true, hkey .read true true,
    hkey .rtt false false, hkey .rtt true false, hkey .rtt false true, hkey .rtt true true,
    fun key hrst hlt => decodeKey_of_code_of_no_phase hrst fun p heq => ?_⟩
  exact absurd hlt (BitVec.not_lt.2 (heq ▸ phaseCode_default_le p))

/-- Settles O20, by the `rst` bit and the phase code of the key. -/
theorem everyKeySelectsOneRow : Obligations.EveryKeySelectsOneRow := by
  intro code hcode
  refine ⟨fun key => decodeKey_of_rst_bit code, fun key p hrst hphase => ?_, fun key => decodeKey_of_code_of_no_phase,
    fun sdo => ?_⟩
  · rw [← transitionKey_of_fields key, hrst, hphase]
    exact filter_selects_length hcode p _ _
  · have hword := decode_retWord code [] (rfl : sdo.length = sdo.length)
    rwa [List.append_nil] at hword

/-- Settles O23: the fetch finds the instruction that the word decodes to. -/
theorem stepRunsTheDecodedInstruction : Obligations.StepRunsTheDecodedInstruction := fun _ _ _ _ _ => step_of_decode

/-- Settles O24: the checks of the fetch in their order, and the tick whose key selects no row. -/
theorem stepStopsByName : Obligations.StepStopsByName := by
  intro s
  refine ⟨fun hadc => ?_, fun hadc hseed => ?_, fun hadc hseed hdeint => ?_, fun hadc hseed hdeint hcode => ?_,
    fun hadc hseed hdeint hcode hwidth => ?_, step_of_trace_nil, fun op rest => step_of_not_wellFormed,
    fun start rest hc htrace hlegal => ?_⟩
  · obtain ⟨hne, hrefusal⟩ := configRefusal_of_not_adcValid hadc
    exact ⟨_, step_of_configRefusal hrefusal, hne, fun _ => mem_violations_iff⟩
  · exact step_of_configRefusal (by simp [configRefusal_of_adcValid hadc, hseed])
  · exact step_of_configRefusal (by simp [configRefusal_of_adcValid hadc, hseed, hdeint])
  · exact step_of_configRefusal (by simp [configRefusal_of_adcValid hadc, hseed, hdeint, hcode])
  · exact step_of_configRefusal (by simp [configRefusal_of_adcValid hadc, hseed, hdeint, hcode, hwidth])
  · obtain ⟨c, hp⟩ := legalPhase_eq_false_iff.1 hlegal
    exact step_tick_of_unused hc htrace hp

/-- Settles O25: the composed tick faults, and RST enters IDLE. -/
theorem unusedPhaseCodeFaultsATick : Obligations.UnusedPhaseCodeFaultsATick := by
  intro s start sdo hlegal hlen
  obtain ⟨c, hp⟩ := legalPhase_eq_false_iff.1 hlegal
  exact ⟨(withSdo_of_length _ hlen).trans (coincTick_of_unused hp start sdo), s.resetRegisters, exec_rst s, rfl⟩

/-- Settles O34: the word is the least number of its width, which bit vectors negate to itself. -/
theorem mostNegativeWordIsItsOwnNegation : Obligations.MostNegativeWordIsItsOwnNegation := by
  intro w hwidth hmin
  have hbits := bits_eq_intMin hwidth hmin
  have hneg : negW w = w := by
    have hself : -w.bits = w.bits := by rw [hbits, BitVec.neg_intMin]
    rw [negW_eq_neg, hself]
  refine ⟨hneg, congrArg Word.toInt hneg, ?_⟩
  rw [Word.toInt, hbits, BitVec.toInt_intMin_of_pos hwidth]
  exact neg_neg_of_pos (by positivity)

/-- Settles O37, by what the register holds. -/
theorem portShowsTheDefinedWord : Obligations.PortShowsTheDefinedWord := by
  refine fun s ch => ⟨fun w hw obs => ?_, fun hbot obs => ?_⟩
  · rw [State.portWord, hw]
  · rw [State.portWord, hbot]

end Sys2Proof.Safety
end
